-- ==== Sys2Proof/Word.lean ====
section
/-! DEFINITION. The CORE's two word sizes (00_scope.md R5). -/

namespace Sys2Proof

/-- An 8-bit register, an opcode or a byte of memory (R5). -/
abbrev Byte := BitVec 8

/-- PC, SP, a register pair or an address: 16 bits (R5). -/
abbrev Addr := BitVec 16

end Sys2Proof
end

