-- ==== Sys2Proof/Syntax.lean ====
section
/-! DEFINITION. The instructions: one constructor per row of spec/opcode_table.json (30_encoding.md R65). -/

namespace Sys2Proof

/-- The eleven instructions (R2, R65). An operand's type admits exactly the values its field encodes (R61 to R63). -/
inductive Instr where
  /-- 0x00 NOP (R76) -/
  | nop
  /-- 0x05 DEC B (R82) -/
  | decB
  /-- 0x06 LD B,d8 (R85) -/
  | ldB (d8 : Byte)
  /-- 0x0D DEC D (R83) -/
  | decD
  /-- 0x0E LD C,d8 (R86) -/
  | ldC (d8 : Byte)
  /-- 0x20 JNZ r8 (R78); `r8` is the offset byte as encoded, before its sign extension (R63) -/
  | jnz (r8 : Byte)
  /-- 0x21 LD BC,d16 (R88) -/
  | ldBC (d16 : Addr)
  /-- 0x32 LD (HL-),A (R89) -/
  | ldHLmA
  /-- 0x3E LD A,d8 (R87) -/
  | ldA (d8 : Byte)
  /-- 0xAF XOR A (R81) -/
  | xorA
  /-- 0xC3 JP a16 (R77) -/
  | jp (a16 : Addr)
  deriving DecidableEq, Repr

end Sys2Proof
end

