-- ==== Sys2Proof/WellFormed.lean ====
section
/-! DEFINITION. What a well-formed instruction is, and when a JNZ operand written in assembly may be encoded
(30_encoding.md R72). -/

namespace Sys2Proof

/-- Every term of `Instr` is well formed: the only operands are bytes and words, whose every value has an encoding
(R61 to R63), and no sub-field of an opcode is decoded (R64). -/
def Instr.wellFormed : Instr → Bool
  | .nop => true
  | .decB => true
  | .ldB _ => true
  | .decD => true
  | .ldC _ => true
  | .jnz _ => true
  | .ldBC _ => true
  | .ldHLmA => true
  | .ldA _ => true
  | .xorA => true
  | .jp _ => true

/-- A JNZ operand written as a signed offset: the range of `r8` is -128 to +127 (R63, R72). -/
def jnzOffsetWellFormed (offset : Int) : Bool :=
  decide (-128 ≤ offset) && decide (offset ≤ 127)

/-- A JNZ operand written as a target: legal only when `t - (pc0 + 2)` lies in [-128, 127] (R72). The difference is
taken modulo 2^16 and read as signed (DESIGN CHOICE, log 9). -/
def jnzTargetWellFormed (pc0 target : Addr) : Bool :=
  jnzOffsetWellFormed (target - (pc0 + 2#16)).toInt

end Sys2Proof
end

