-- ==== Sys2Proof/Decode.lean ====
section
/-! DEFINITION. The dispatcher, the decoder and the encoder (30_encoding.md R59 to R75). -/

namespace Sys2Proof

/-- The 16-bit immediate `b2 ++ b1`: little-endian, `b1` at the lower address (R44, R63). -/
def imm16 (b1 b2 : Byte) : Addr :=
  b2 ++ b1

/-- The low byte of a word, `v[7:0]` (R9). -/
def loByte (v : Addr) : Byte :=
  v.extractLsb' 0 8

/-- The high byte of a word, `v[15:8]` (R9). -/
def hiByte (v : Addr) : Byte :=
  v.extractLsb' 8 8

/-- The instruction definition an opcode selects, by its format (R60 to R62): the operand bytes it takes after the
opcode, and the instruction they make. -/
inductive Descriptor where
  /-- F1: no operand byte -/
  | f1 (i : Instr)
  /-- F2: one operand byte `b1` -/
  | f2 (mk : Byte → Instr)
  /-- F3: two operand bytes, assembled as `b2 ++ b1` -/
  | f3 (mk : Addr → Instr)

/-- The length in bytes of the instructions of a format (R59). -/
def Descriptor.length : Descriptor → Nat
  | .f1 _ => 1
  | .f2 _ => 2
  | .f3 _ => 3

/-- The opcode map, ordered by opcode (R65). -/
def opcodeTable : List (Byte × Descriptor) :=
  [ (0x00#8, .f1 .nop),
    (0x05#8, .f1 .decB),
    (0x06#8, .f2 .ldB),
    (0x0D#8, .f1 .decD),
    (0x0E#8, .f2 .ldC),
    (0x20#8, .f2 .jnz),
    (0x21#8, .f3 .ldBC),
    (0x32#8, .f1 .ldHLmA),
    (0x3E#8, .f2 .ldA),
    (0xAF#8, .f1 .xorA),
    (0xC3#8, .f3 .jp) ]

/-- The dispatcher: total on the 256 opcode bytes, matching the whole byte; `none` is `unimplemented` (R64, R70, R74). -/
def dispatchOpcode (op : Byte) : Option Descriptor :=
  (opcodeTable.find? (fun row => row.1 == op)).map (fun row => row.2)

/-- Why a list of bytes is no instruction. -/
inductive DecodeError where
  /-- The opcode is not in the map (R67, R70). -/
  | unimplementedOpcode (op : Byte)
  /-- The list ends before the operand bytes the opcode takes; the machine reads its operands through the memory port
  and never meets this. -/
  | truncated (op : Byte)
  /-- The list is empty: there is no opcode byte. -/
  | empty
  deriving DecidableEq, Repr

/-- The decoder on a list of bytes in address order: the instruction and the bytes after it (R59 to R63, R74). -/
def decode : List Byte → Except DecodeError (Instr × List Byte)
  | [] => .error .empty
  | op :: rest =>
    match dispatchOpcode op with
    | none => .error (.unimplementedOpcode op)
    | some (.f1 i) => .ok (i, rest)
    | some (.f2 mk) =>
      match rest with
      | b1 :: rest' => .ok (mk b1, rest')
      | [] => .error (.truncated op)
    | some (.f3 mk) =>
      match rest with
      | b1 :: b2 :: rest' => .ok (mk (imm16 b1 b2), rest')
      | _ => .error (.truncated op)

/-- The bytes of an instruction in address order (R60 to R62, R65). -/
def encode : Instr → List Byte
  | .nop => [0x00#8]
  | .decB => [0x05#8]
  | .ldB d8 => [0x06#8, d8]
  | .decD => [0x0D#8]
  | .ldC d8 => [0x0E#8, d8]
  | .jnz r8 => [0x20#8, r8]
  | .ldBC d16 => [0x21#8, loByte d16, hiByte d16]
  | .ldHLmA => [0x32#8]
  | .ldA d8 => [0x3E#8, d8]
  | .xorA => [0xAF#8]
  | .jp a16 => [0xC3#8, loByte a16, hiByte a16]

/-- The length column of R65: what the sequential advance adds to PC (R69). -/
def Instr.length : Instr → Nat
  | .nop => 1
  | .decB => 1
  | .ldB _ => 2
  | .decD => 1
  | .ldC _ => 2
  | .jnz _ => 2
  | .ldBC _ => 3
  | .ldHLmA => 1
  | .ldA _ => 2
  | .xorA => 1
  | .jp _ => 3

/-- The three bytes of a numbered table word: byte `k` is bits `8k+7` to `8k`, and every bit at or above `nbits` is 0. -/
def tableWordBytes (nbits w : Nat) : List Byte :=
  let v := w % 2 ^ nbits
  [BitVec.ofNat 8 v, BitVec.ofNat 8 (v / 2 ^ 8), BitVec.ofNat 8 (v / 2 ^ 16)]

/-- The instruction this decoder reads from an instruction whose bits are `w`, numbered as spec/opcode_table.json
numbers them. -/
def decodeTableWord (nbits w : Nat) : Option Instr :=
  match decode (tableWordBytes nbits w) with
  | .ok (i, _) => some i
  | .error _ => none

end Sys2Proof
end

