-- ==== Sys2Proof/Config.lean ====
section
/-! DEFINITION. The constants the spec fixes for the machine and for the reference bus. The parameters `Bus`, `cart` and
`reset_pc` of R6 are arguments (of `State.resetAt` and of the Reset input), not constants. The CORE has no free value (R14;
93_implementation_defined.md section 1): the two constants without a body are the answers of a Bus that the host gives (R6, D16). -/

namespace Sys2Proof.Machine

/-- The kinds of fault the memory port returns (R34). -/
inductive MemFaultKind where
  /-- an address with no backing region (R36, R37) -/
  | unmapped
  /-- a cartridge access at `addr >= L` (R39, R40) -/
  | outOfBounds
  /-- a write to the cartridge at `addr < L` (R40) -/
  | unimplemented
  deriving DecidableEq, Repr, Inhabited

end Sys2Proof.Machine

namespace Sys2Proof.Config

open Sys2Proof.Machine (MemFaultKind)

/-- `reset_pc` when the host gives none (R6, R31). -/
def defaultResetPc : Addr := 0x0000

/-- The driver contract's conventional starting value of `reset_pc` (R6, R43). -/
def conventionalResetPc : Addr := 0x0100

/-- One past the last address of the reference bus's cartridge window (R36, R37). -/
def cartWindowEnd : Nat := 0x8000

/-- The length of the source's blank test image (R41). -/
def blankImageLength : Nat := 0x8000

/-- The number of addresses of the one address space (R35); also the greatest cartridge length (R6). -/
def addressSpaceSize : Nat := 0x10000

/-- What a byte that a memory does not list reads as: the test images and test bus T are zero-filled (R41, log 3). -/
def blankByte : Byte := 0x00

/-- The pure read function of the Bus of number `id` (R6, D16), where the model is given no answer: what a read of an
address answers after the accepted writes listed, newest first. No body: it may be any function (log 17). -/
opaque portRead (id : Nat) (history : List (Addr × Byte)) (addr : Addr) : Except MemFaultKind Byte

/-- The write function of the same Bus: whether it accepts a write of a byte at an address, after the accepted writes
listed. No body: it may be any function (log 17). -/
opaque portWrite (id : Nat) (history : List (Addr × Byte)) (addr : Addr) (v : Byte) : Except MemFaultKind Unit

end Sys2Proof.Config
end

