-- ==== Sys2Proof/Machine/State.lean ====
section
/-! DEFINITION. The architectural state (10_state.md), the Bus parameter behind the memory port (20_memory.md R34 to R42),
the fault record (60_exceptions.md R91, R92) and the state after reset. -/

namespace Sys2Proof.Machine

/-- The eight 8-bit registers (R15). -/
inductive Reg where
  | a | b | c | d | e | f | h | l
  deriving DecidableEq, Repr

/-- An `Err` of the memory port: the kind and the address of the failing access (R34). -/
structure MemFault where
  kind : MemFaultKind
  addr : Addr
  deriving DecidableEq, Repr

/-- The four fault kinds of the CORE (R91). -/
inductive FaultKind where
  /-- code 1: the opcode is not in the dispatch table; raised by the dispatcher -/
  | unimplementedOpcode
  /-- code 2: raised by the memory port -/
  | unmapped
  /-- code 3: raised by the memory port -/
  | outOfBounds
  /-- code 4: raised by the memory port -/
  | unimplemented
  deriving DecidableEq, Repr

/-- Which access of a Step failed (R92). -/
inductive Access where
  | fetchOpcode | fetchOperand1 | fetchOperand2 | store
  deriving DecidableEq, Repr

/-- The record a fault is reported as (R92). -/
structure FaultInfo where
  /-- `code`, by its name (R91) -/
  kind : FaultKind
  /-- `pc0`, the address of the opcode byte of the faulting instruction -/
  pc : Addr
  /-- the opcode byte; none when the opcode fetch itself failed -/
  opcode : Option Byte
  /-- the address of the failing access; none for code 1 -/
  addr : Option Addr
  /-- the failing access; none for code 1 -/
  access : Option Access
  /-- the byte being stored; present only for a store -/
  value : Option Byte
  deriving DecidableEq, Repr

/-- A memory: (address, byte) pairs in one canonical form (`Memory.wf` of Machine/Ops.lean): addresses strictly rising,
no entry equal to what an unlisted address reads as. -/
abbrev Memory := List Host.Cell

/-- The cartridge: a byte sequence of length `L`, fixed when it is loaded (R6, R41). -/
structure Cartridge where
  /-- `L`, at most 65536 -/
  len : Nat
  /-- the bytes at offsets below `L`, as a `Memory` -/
  content : Memory
  deriving DecidableEq, Repr

/-- How a region that a Bus adds to the reference map answers (R6, R34, R53; log 1). -/
inductive RegionAccess where
  /-- reads return the stored byte, writes store it -/
  | ram
  /-- reads return the stored byte, writes fail with the kind -/
  | readOnly (onWrite : MemFaultKind)
  /-- reads and writes fail with the kinds -/
  | noAccess (onRead onWrite : MemFaultKind)
  /-- reads and writes are answered by the Bus's `port` -/
  | port
  deriving DecidableEq, Repr

/-- A region that a Bus adds: the `size` addresses from `base` on. -/
structure Region where
  base : Nat
  size : Nat
  access : RegionAccess
  deriving DecidableEq, Repr

/-- One given answer of a port's read function: in one mode, for the `size` addresses from `base` on (D16; log 17). -/
structure ReadRow where
  mode : Nat
  base : Nat
  size : Nat
  answer : Except MemFaultKind Byte
  deriving DecidableEq, Repr

/-- One given answer of a port's write function: in one mode, for the `size` addresses from `base` on and the values from
`minValue` to `maxValue`, a fault or the mode the port goes to (D16; log 17). -/
structure WriteRow where
  mode : Nat
  base : Nat
  size : Nat
  minValue : Byte
  maxValue : Byte
  answer : Except MemFaultKind Nat
  deriving DecidableEq, Repr

/-- Any pure read function and any write function returning the new bus, each able to return the three fault kinds (R6, R34,
D16), as plain data: the rows give answers by mode, address and value, and what no row gives is answered by `Config.portRead`
and `Config.portWrite` after the writes accepted so far (log 17). -/
structure Port where
  /-- which Bus of `Config.portRead` and `Config.portWrite` it is -/
  id : Nat
  /-- where an accepted write leaves the port -/
  mode : Nat
  reads : List ReadRow
  writes : List WriteRow
  /-- the bytes written to the port, which its reads return (R53): addresses strictly rising -/
  held : List Host.Cell
  /-- the writes accepted so far, newest first -/
  history : List (Addr × Byte)
  deriving DecidableEq, Repr

/-- The Bus parameter (R6, D16) as plain data (DESIGN CHOICE, log 1): the reference bus around a cartridge (R36, R37),
overridden by the regions listed, the first that covers an address winning. One region of `port` access over the whole address
space is any Bus that D16 allows. -/
structure Bus where
  cart : Cartridge
  /-- empty on the reference bus -/
  regions : List Region
  /-- the bytes held by the regions of RAM and of read-only bytes -/
  bytes : Memory
  /-- what answers in the regions of `port` access -/
  port : Port
  deriving DecidableEq, Repr

/-- The whole state: the register file, PC, SP and the fault latch (R32), and beside them the Bus. -/
structure State where
  /-- A (R15) -/
  a : Byte
  /-- B (R15) -/
  b : Byte
  /-- C (R15) -/
  c : Byte
  /-- D (R15) -/
  d : Byte
  /-- E (R15, R17) -/
  e : Byte
  /-- F, the flag register (R18) -/
  f : Byte
  /-- H (R15) -/
  h : Byte
  /-- L (R15) -/
  l : Byte
  /-- the program counter (R26) -/
  pc : Addr
  /-- the stack pointer (R27) -/
  sp : Addr
  /-- the fault latch (R28) -/
  fault : Option FaultInfo
  /-- the Bus and the memory behind it (R32, R34) -/
  bus : Bus
  deriving DecidableEq, Repr

/-- Why a Step answers no next state. -/
inductive Fault where
  /-- Raised by `step` alone, when the fault latch holds `info`: the CORE is stuck until Reset and every Step returns the
  same fault, with no access and no change (R94). Safe: the spec says so. The Step that RAISES the fault answers a next state,
  the one whose latch holds it (log 4). -/
  | latched (info : FaultInfo)
  deriving DecidableEq, Repr

/-- Why an instruction has no meaning. -/
inductive Refusal where
  /-- Raised by `exec`'s arm for an instruction that has no meaning yet; no arm does so. Safe. -/
  | notModelled (mnemonic : String)
  deriving DecidableEq, Repr

/-- A zero-filled cartridge of length `len` (R41). -/
def Cartridge.blank (len : Nat) : Cartridge :=
  { len := len, content := [] }

/-- A port that is given no answer and has accepted no write. -/
def Port.ofId (id : Nat) : Port :=
  { id := id, mode := 0, reads := [], writes := [], held := [], history := [] }

/-- The reference bus around a cartridge (R36, R37): nothing beyond the cartridge window is mapped. -/
def Bus.reference (cart : Cartridge) : Bus :=
  { cart := cart, regions := [], bytes := [], port := Port.ofId 0 }

/-- Test bus T (95_test_vectors.md): 65,536 bytes of zero-filled RAM; no access faults. -/
def Bus.flatRam : Bus :=
  { cart := Cartridge.blank 0,
    regions := [{ base := 0, size := Config.addressSpaceSize, access := .ram }],
    bytes := [], port := Port.ofId 0 }

/-- The Bus that a port answers at every address. -/
def Bus.ofPort (port : Port) : Bus :=
  { cart := Cartridge.blank 0,
    regions := [{ base := 0, size := Config.addressSpaceSize, access := .port }],
    bytes := [], port := port }

/-- The state after Reset with input `resetPc`, on a Bus (R31, R108). -/
def State.resetAt (bus : Bus) (resetPc : Addr) : State :=
  { a := 0x00, b := 0x00, c := 0x00, d := 0x00, e := 0x00, f := 0x00, h := 0x00, l := 0x00,
    pc := resetPc, sp := 0x0000, fault := none, bus := bus }

/-- The machine right after reset: the reference bus around the blank image, and the default `reset_pc` (R31, R41, R110;
DESIGN CHOICE for the three parameters, log 2). -/
def State.reset : State :=
  State.resetAt (Bus.reference (Cartridge.blank Config.blankImageLength)) Config.defaultResetPc

end Sys2Proof.Machine
end

