-- ==== Sys2Proof/Machine/Ops.lean ====
section
/-! DEFINITION. The shared operations: registers and pairs (10_state.md), memories, the cartridge, the Bus and the memory
port (20_memory.md), the instruction fetch (30_encoding.md R66), taking a fault (60_exceptions.md R93, R94) and Reset, the
only way out of one (70_reset_and_hazards.md R108). -/

namespace Sys2Proof.Machine

/-! ### Registers and register pairs -/

/-- `R[r]` (R10, R16). -/
def State.getReg (s : State) : Reg → Byte
  | .a => s.a
  | .b => s.b
  | .c => s.c
  | .d => s.d
  | .e => s.e
  | .f => s.f
  | .h => s.h
  | .l => s.l

/-- `R[r] <- v` (R10, R16): no register is hardwired. -/
def State.setReg (s : State) (r : Reg) (v : Byte) : State :=
  match r with
  | .a => { s with a := v }
  | .b => { s with b := v }
  | .c => { s with c := v }
  | .d => { s with d := v }
  | .e => { s with e := v }
  | .f => { s with f := v }
  | .h => { s with h := v }
  | .l => { s with l := v }

/-- `pair(hi, lo)`: the high register is the high byte (R24). -/
def State.getPair (s : State) (hi lo : Reg) : Addr :=
  s.getReg hi ++ s.getReg lo

/-- `pair(hi, lo) <- v` (R24): the writes in the order the rule gives them (log 7). -/
def State.setPair (s : State) (hi lo : Reg) (v : Addr) : State :=
  (s.setReg hi (hiByte v)).setReg lo (loByte v)

/-- `pc <- target` (R10). -/
def State.setPc (s : State) (target : Addr) : State :=
  { s with pc := target }

/-- The sequential advance, modulo 2^16 (R69). -/
def State.advance (s : State) (length : Nat) : State :=
  s.setPc (s.pc + BitVec.ofNat 16 length)

/-- The state with another Bus behind the memory port. -/
def State.setBus (s : State) (bus : Bus) : State :=
  { s with bus := bus }

/-! ### Memories -/

/-- The byte at an address. -/
def Memory.read : Memory → Nat → Byte
  | [], _ => Config.blankByte
  | cell :: rest, addr => if cell.1 = addr then cell.2 else Memory.read rest addr

/-- Set the byte at an address, keeping the canonical form: a byte that an unlisted address reads as is not listed. -/
def Memory.write : Memory → Nat → Byte → Memory
  | [], addr, v => if v = Config.blankByte then [] else [(addr, v)]
  | cell :: rest, addr, v =>
    if addr < cell.1 then
      if v = Config.blankByte then cell :: rest else (addr, v) :: cell :: rest
    else if addr = cell.1 then
      if v = Config.blankByte then rest else (addr, v) :: rest
    else cell :: Memory.write rest addr v

/-- The canonical form: addresses strictly rising and below `bound`, no entry equal to the blank byte. -/
abbrev Memory.wf (bound : Nat) (m : Memory) : Prop :=
  m.Pairwise (fun x y => x.1 < y.1) ∧ ∀ x ∈ m, x.1 < bound ∧ x.2 ≠ Config.blankByte

/-! ### The cartridge -/

/-- `Cartridge.Read` (R39): the bound is half-open. -/
def Cartridge.read (c : Cartridge) (addr : Addr) : Except MemFault Byte :=
  if addr.toNat < c.len then .ok (Memory.read c.content addr.toNat)
  else .error { kind := .outOfBounds, addr := addr }

/-- `Cartridge.Write` (R40): it always fails, the bounds check first. -/
def Cartridge.writeFault (c : Cartridge) (addr : Addr) : MemFault :=
  if addr.toNat < c.len then { kind := .unimplemented, addr := addr }
  else { kind := .outOfBounds, addr := addr }

/-- A cartridge's length is at most 65536 and its content lies below it, in canonical form (R6). -/
abbrev Cartridge.wf (c : Cartridge) : Prop :=
  c.len ≤ Config.addressSpaceSize ∧ Memory.wf c.len c.content

/-! ### The port: a Bus given by its answers -/

/-- The byte held at an address, if one is. -/
def heldAt : List Host.Cell → Nat → Option Byte
  | [], _ => none
  | cell :: rest, addr => if cell.1 = addr then some cell.2 else heldAt rest addr

/-- Hold a byte at an address, in the place of the one held there before. -/
def hold : List Host.Cell → Nat → Byte → List Host.Cell
  | [], addr, v => [(addr, v)]
  | cell :: rest, addr, v =>
    if addr < cell.1 then (addr, v) :: cell :: rest
    else if addr = cell.1 then (addr, v) :: rest
    else cell :: hold rest addr v

/-- Does an address lie among the `size` addresses from `base` on? -/
def inRange (base size : Nat) (addr : Addr) : Bool :=
  decide (base ≤ addr.toNat) && decide (addr.toNat < base + size)

/-- What the port's read function answers at an address: the first row that fits, else the host's function. -/
def Port.readAnswer (p : Port) (addr : Addr) : Except MemFaultKind Byte :=
  match p.reads.find? (fun row => row.mode == p.mode && inRange row.base row.size addr) with
  | some row => row.answer
  | none => Config.portRead p.id p.history addr

/-- What the port's write function answers: a fault, or the mode it goes to. The first row that fits, else the host's
function, which leaves the mode alone. -/
def Port.writeAnswer (p : Port) (addr : Addr) (v : Byte) : Except MemFaultKind Nat :=
  match p.writes.find? (fun row => row.mode == p.mode && inRange row.base row.size addr &&
      decide (row.minValue ≤ v) && decide (v ≤ row.maxValue)) with
  | some row => row.answer
  | none => (Config.portWrite p.id p.history addr v).map (fun _ => p.mode)

/-- `MemRead` of a port: a written address returns the written byte (R53), any other what the read function answers (D16). It
changes nothing (R34, R49). -/
def Port.read (p : Port) (addr : Addr) : Except MemFault Byte :=
  match heldAt p.held addr.toNat with
  | some v => .ok v
  | none =>
    match p.readAnswer addr with
    | .ok v => .ok v
    | .error kind => .error { kind := kind, addr := addr }

/-- `MemWrite` of a port, answering the port after the write (R34, D16). -/
def Port.write (p : Port) (addr : Addr) (v : Byte) : Except MemFault Port :=
  match p.writeAnswer addr v with
  | .ok mode =>
    .ok { p with mode := mode, held := hold p.held addr.toNat v, history := (addr, v) :: p.history }
  | .error kind => .error { kind := kind, addr := addr }

/-- The bytes a port holds are listed by strictly rising address, inside the address space (R35). -/
abbrev Port.wf (p : Port) : Prop :=
  p.held.Pairwise (fun x y => x.1 < y.1) ∧ ∀ x ∈ p.held, x.1 < Config.addressSpaceSize

/-! ### The Bus -/

/-- Does a region cover an address? -/
def Region.covers (r : Region) (addr : Addr) : Bool :=
  inRange r.base r.size addr

/-- A region lies inside the address space (R35). -/
abbrev Region.wf (r : Region) : Prop :=
  r.base + r.size ≤ Config.addressSpaceSize

/-- The access rule that a Bus's added regions give an address; none where the reference map stands. -/
def Bus.accessAt (bus : Bus) (addr : Addr) : Option RegionAccess :=
  (bus.regions.find? (fun r => r.covers addr)).map (fun r => r.access)

/-- `Bus.Read` (R34). With no region added it is the reference bus's (R36). -/
def Bus.read (bus : Bus) (addr : Addr) : Except MemFault Byte :=
  match bus.accessAt addr with
  | some .ram => .ok (Memory.read bus.bytes addr.toNat)
  | some (.readOnly _) => .ok (Memory.read bus.bytes addr.toNat)
  | some (.noAccess onRead _) => .error { kind := onRead, addr := addr }
  | some .port => bus.port.read addr
  | none =>
    if addr.toNat < Config.cartWindowEnd then bus.cart.read addr
    else .error { kind := .unmapped, addr := addr }

/-- `Bus.Write` (R34), answering the bus after the write. With no region added it is the reference bus's, and it always
fails (R37). -/
def Bus.write (bus : Bus) (addr : Addr) (v : Byte) : Except MemFault Bus :=
  match bus.accessAt addr with
  | some .ram => .ok { bus with bytes := Memory.write bus.bytes addr.toNat v }
  | some (.readOnly onWrite) => .error { kind := onWrite, addr := addr }
  | some (.noAccess _ onWrite) => .error { kind := onWrite, addr := addr }
  | some .port =>
    match bus.port.write addr v with
    | .ok port => .ok { bus with port := port }
    | .error e => .error e
  | none =>
    if addr.toNat < Config.cartWindowEnd then .error (bus.cart.writeFault addr)
    else .error { kind := .unmapped, addr := addr }

/-- The Bus is the reference bus around some cartridge (R36, R37). -/
abbrev Bus.isReference (bus : Bus) : Prop :=
  bus.regions = []

/-- A Bus's cartridge, regions, stored bytes and port are each well formed. -/
abbrev Bus.wf (bus : Bus) : Prop :=
  bus.cart.wf ∧ (∀ r ∈ bus.regions, r.wf) ∧ Memory.wf Config.addressSpaceSize bus.bytes ∧ bus.port.wf

/-- A read of the address is answered by a byte that the Bus holds or by a fixed rule of its map, and not by the read function
of a port, whose answer any accepted write to the port may change (D16). -/
abbrev Bus.holds (bus : Bus) (addr : Addr) : Prop :=
  bus.accessAt addr = some .port → heldAt bus.port.held addr.toNat ≠ none

/-! ### The memory port -/

/-- `MemRead(addr, 1)` (R10, R34): it changes nothing. -/
def State.memRead (s : State) (addr : Addr) : Except MemFault Byte :=
  s.bus.read addr

/-- `MemWrite(addr, 1, v)` (R10, R34). -/
def State.memWrite (s : State) (addr : Addr) (v : Byte) : Except MemFault State :=
  match s.bus.write addr v with
  | .ok bus => .ok (s.setBus bus)
  | .error e => .error e

/-! ### Faults -/

/-- The CORE's fault kind for an error of the memory port (R34, R91). -/
def MemFaultKind.toFaultKind : MemFaultKind → FaultKind
  | .unmapped => .unmapped
  | .outOfBounds => .outOfBounds
  | .unimplemented => .unimplemented

/-- The numeric code of a fault kind (R91). -/
def FaultKind.code : FaultKind → Nat
  | .unimplementedOpcode => 1
  | .unmapped => 2
  | .outOfBounds => 3
  | .unimplemented => 4

/-- The numeric code of the latch: 0 means "no fault" (R91). -/
def State.faultCode (s : State) : Nat :=
  match s.fault with
  | none => 0
  | some info => info.kind.code

/-- The record of an opcode that is not in the dispatch table (R67, R92, R95). -/
def unimplementedOpcodeInfo (pc0 : Addr) (op : Byte) : FaultInfo :=
  { kind := .unimplementedOpcode, pc := pc0, opcode := some op, addr := none, access := none, value := none }

/-- The record of a failed fetch: `op` is none for the opcode fetch itself (R92). -/
def fetchFaultInfo (pc0 : Addr) (op : Option Byte) (access : Access) (e : MemFault) : FaultInfo :=
  { kind := e.kind.toFaultKind, pc := pc0, opcode := op, addr := some e.addr, access := some access, value := none }

/-- The record of a failed store of `v` (R92). -/
def storeFaultInfo (pc0 : Addr) (op v : Byte) (e : MemFault) : FaultInfo :=
  { kind := e.kind.toFaultKind, pc := pc0, opcode := some op, addr := some e.addr, access := some .store, value := some v }

/-- Which fields of a record are present (R92): `opcode` unless the opcode fetch failed; `addr` and `access` unless the
opcode is unimplemented; `value` for a store only. -/
abbrev FaultInfo.wf (info : FaultInfo) : Prop :=
  (info.opcode = none ↔ info.access = some .fetchOpcode) ∧
  (info.addr = none ↔ info.kind = .unimplementedOpcode) ∧
  (info.access = none ↔ info.kind = .unimplementedOpcode) ∧
  (info.value = none ↔ info.access ≠ some .store)

/-- FAULT ENTRY: the fault latch takes the record and nothing else changes, neither register, PC, SP nor memory (R93, R94).
`s` is the state the Step began with, so every write made before the raise is discarded (R10). -/
def raiseFault (info : FaultInfo) (s : State) : Host.Outcome State Fault Refusal :=
  .next { s with fault := some info }

/-- RETURN: there is none but Reset with input `resetPc`, which leaves the Bus alone (R94, R100, R108). -/
def State.assertReset (s : State) (resetPc : Addr) : State :=
  State.resetAt s.bus resetPc

/-! ### Fetching an instruction -/

/-- One read of the fetch, with the record of its fault (R66, R92). -/
def fetchByte (s : State) (op : Option Byte) (access : Access) (addr : Addr) : Except FaultInfo Byte :=
  match s.memRead addr with
  | .ok b => .ok b
  | .error e => .error (fetchFaultInfo s.pc op access e)

/-- Steps 1 and 2 of R66: the opcode is read and dispatched, then its operand bytes are read in address order, at
`pc0 + 1` and `pc0 + 2` modulo 2^16; the first that fails is the fault (R67, R97). -/
def fetchInstr (s : State) : Except FaultInfo Instr :=
  match fetchByte s none .fetchOpcode s.pc with
  | .error info => .error info
  | .ok op =>
    match dispatchOpcode op with
    | none => .error (unimplementedOpcodeInfo s.pc op)
    | some (.f1 i) => .ok i
    | some (.f2 mk) =>
      match fetchByte s (some op) .fetchOperand1 (s.pc + 1#16) with
      | .error info => .error info
      | .ok b1 => .ok (mk b1)
    | some (.f3 mk) =>
      match fetchByte s (some op) .fetchOperand1 (s.pc + 1#16) with
      | .error info => .error info
      | .ok b1 =>
        match fetchByte s (some op) .fetchOperand2 (s.pc + 2#16) with
        | .error info => .error info
        | .ok b2 => .ok (mk (imm16 b1 b2))

/-! ### Building a Bus around given bytes (host side, log 10) -/

/-- The Bus on which a read of `addr` answers `v` and every other address answers as before: the byte is put where a read
of `addr` looks (a port holds it, with no write counted), and an address that no read reaches gets a one-byte read-only region
whose writes fail as they did. -/
def Bus.withByte (bus : Bus) (addr : Addr) (v : Byte) : Bus :=
  match bus.accessAt addr with
  | some .ram => { bus with bytes := Memory.write bus.bytes addr.toNat v }
  | some (.readOnly _) => { bus with bytes := Memory.write bus.bytes addr.toNat v }
  | some (.noAccess _ onWrite) =>
    { bus with
      regions := { base := addr.toNat, size := 1, access := .readOnly onWrite } :: bus.regions,
      bytes := Memory.write bus.bytes addr.toNat v }
  | some .port => { bus with port := { bus.port with held := hold bus.port.held addr.toNat v } }
  | none =>
    if addr.toNat < Config.cartWindowEnd ∧ addr.toNat < bus.cart.len then
      { bus with cart := { bus.cart with content := Memory.write bus.cart.content addr.toNat v } }
    else
      { bus with
        regions :=
          { base := addr.toNat, size := 1,
            access := .readOnly
              (if addr.toNat < Config.cartWindowEnd then .outOfBounds else .unmapped) } :: bus.regions,
        bytes := Memory.write bus.bytes addr.toNat v }

/-- The Bus with bytes at successive addresses from `addr` on, modulo 2^16. -/
def Bus.withBytes : Bus → Addr → List Byte → Bus
  | bus, _, [] => bus
  | bus, addr, v :: rest => Bus.withBytes (bus.withByte addr v) (addr + 1#16) rest

end Sys2Proof.Machine
end

