-- ==== Sys2Proof/Machine/Flags.lean ====
section
/-! DEFINITION. The flag register F and every flag computation (10_state.md R18 to R23, 41_alu.md R80, R81). -/

namespace Sys2Proof.Machine

/-- The four flags (R18). -/
inductive Flag where
  | z | n | h | c
  deriving DecidableEq, Repr

/-- The bit position of a flag in F (R18). -/
def Flag.bit : Flag → Nat
  | .z => 7
  | .n => 6
  | .h => 5
  | .c => 4

/-- `GetFlag(p)` (R19). -/
def getFlagBit (f : Byte) (p : Nat) : Bool :=
  ((f >>> p) &&& 1#8) != 0#8

/-- `SetFlag(p, b)` (R22): every other bit keeps its value. -/
def setFlagBit (f : Byte) (p : Nat) (b : Bool) : Byte :=
  (f &&& ~~~(1#8 <<< p)) ||| (if b then 1#8 <<< p else 0#8)

/-- `flag(X)` (R10, R19). -/
def State.flag (s : State) (x : Flag) : Bool :=
  getFlagBit (s.getReg .f) x.bit

/-- `flag(X) <- b` (R10, R22). -/
def State.setFlag (s : State) (x : Flag) (b : Bool) : State :=
  s.setReg .f (setFlagBit (s.getReg .f) x.bit b)

/-- `Zdec`: the zero flag of a decrement's result (R80). -/
def decZero (res : Byte) : Bool :=
  res == 0x00#8

/-- `Hdec`: the borrow out of bit 4 when 1 is subtracted from `old` (R80, decision D7). -/
def decHalfCarry (old : Byte) : Bool :=
  old.extractLsb' 0 4 == 0x0#4

/-- The flags of DEC: Z, N and H written, C and F[3:0] unchanged (R80, R82, decision D8). -/
def State.setDecFlags (s : State) (old res : Byte) : State :=
  ((s.setFlag .z (decZero res)).setFlag .n true).setFlag .h (decHalfCarry old)

/-- The flags of XOR A: Z, N, H and C cleared, Z too although the result is zero (R81, decision D11). -/
def State.clearFlags (s : State) : State :=
  (((s.setFlag .z false).setFlag .n false).setFlag .h false).setFlag .c false

end Sys2Proof.Machine
end

