-- ==== Sys2Proof/Machine/Alu.lean ====
section
/-! DEFINITION. The ALU instructions (41_alu.md). None can fault (R84). -/

namespace Sys2Proof.Machine

/-- The decrement of a register with its flags, and the sequential advance (R79, R80, R82). -/
def decRegister (r : Reg) (s : State) : State :=
  let old := s.getReg r
  let res := old - 1#8
  ((s.setReg r res).setDecFlags old res).advance 1

/-- XOR A (R81). -/
def execXorA (s : State) : Host.Outcome State Fault Refusal :=
  .next ((s.setReg .a (s.getReg .a ^^^ s.getReg .a)).clearFlags.advance 1)

/-- DEC B (R82). -/
def execDecB (s : State) : Host.Outcome State Fault Refusal :=
  .next (decRegister .b s)

/-- DEC D, opcode 0x0D (R83; 90_conflicts.md C4): register C is not changed. -/
def execDecD (s : State) : Host.Outcome State Fault Refusal :=
  .next (decRegister .d s)

end Sys2Proof.Machine
end

