-- ==== Sys2Proof/Machine/Operands.lean ====
section
/-! DEFINITION. The operand forms (42_loads.md R90) and the branch-target calculator (40_control.md R77, R78). Immediate bytes
and words arrive assembled by the decoder (`imm16`, R63). -/

namespace Sys2Proof.Machine

/-- `sext_16` of the offset byte (R10, R63). -/
def signedOffset (r8 : Byte) : Addr :=
  r8.signExtend 16

/-- The relative target: the offset counts from the next instruction, at `pc0 + 2`, modulo 2^16 (R78). -/
def relativeTarget (pc0 : Addr) (r8 : Byte) : Addr :=
  pc0 + 2#16 + signedOffset r8

/-- The effective address of register indirect through HL (R90). -/
def State.hlAddr (s : State) : Addr :=
  s.getPair .h .l

/-- The post-decrement of HL, modulo 2^16 (R89, R90). -/
def State.postDecrementHL (s : State) : State :=
  s.setPair .h .l (s.hlAddr - 1#16)

end Sys2Proof.Machine
end

