-- ==== Sys2Proof/Machine/Control.lean ====
section
/-! DEFINITION. NOP and the control transfers (40_control.md). Each meaning ends with the PC write that the rule or the step
gives it (R69). -/

namespace Sys2Proof.Machine

/-- NOP (R76). -/
def execNop (s : State) : Host.Outcome State Fault Refusal :=
  .next (s.advance 1)

/-- JP a16 (R77). -/
def execJp (a16 : Addr) (s : State) : Host.Outcome State Fault Refusal :=
  .next (s.setPc a16)

/-- JNZ r8 (R78). -/
def execJnz (r8 : Byte) (s : State) : Host.Outcome State Fault Refusal :=
  if s.flag .z then .next (s.setPc (s.pc + 2#16))
  else .next (s.setPc (relativeTarget s.pc r8))

end Sys2Proof.Machine
end

