-- ==== Sys2Proof/Machine/Loads.lean ====
section
/-! DEFINITION. Loads and stores (42_loads.md). No instruction of this family writes a flag. -/

namespace Sys2Proof.Machine

/-- LD B,d8 (R85). -/
def execLdB (d8 : Byte) (s : State) : Host.Outcome State Fault Refusal :=
  .next ((s.setReg .b d8).advance 2)

/-- LD C,d8 (R86). -/
def execLdC (d8 : Byte) (s : State) : Host.Outcome State Fault Refusal :=
  .next ((s.setReg .c d8).advance 2)

/-- LD A,d8 (R87). -/
def execLdA (d8 : Byte) (s : State) : Host.Outcome State Fault Refusal :=
  .next ((s.setReg .a d8).advance 2)

/-- LD BC,d16, opcode 0x21 (R88; 90_conflicts.md C5): H and L are not written. -/
def execLdBC (d16 : Addr) (s : State) : Host.Outcome State Fault Refusal :=
  .next ((s.setPair .b .c d16).advance 3)

/-- The opcode of LD (HL-),A (R65), for the record of its store fault. -/
def opcodeLdHLmA : Byte := 0x32

/-- LD (HL-),A, opcode 0x32 (R89; 90_conflicts.md C2): store A at HL, then decrement HL; a store that fails raises the
port's fault and changes nothing else (R93). -/
def execLdHLmA (s : State) : Host.Outcome State Fault Refusal :=
  match s.memWrite s.hlAddr (s.getReg .a) with
  | .ok s' => .next (s'.postDecrementHL.advance 1)
  | .error e => raiseFault (storeFaultInfo s.pc opcodeLdHLmA (s.getReg .a) e) s

end Sys2Proof.Machine
end

