-- ==== Sys2Proof/Machine/Dispatch.lean ====
section
/-! DEFINITION. One arm per instruction (30_encoding.md R65, R66 step 3). -/

namespace Sys2Proof.Machine

def exec (i : Instr) (s : State) : Host.Outcome State Fault Refusal :=
  match i with
  | .nop => Sys2Proof.Machine.execNop s
  | .decB => Sys2Proof.Machine.execDecB s
  | .ldB d8 => Sys2Proof.Machine.execLdB d8 s
  | .decD => Sys2Proof.Machine.execDecD s
  | .ldC d8 => Sys2Proof.Machine.execLdC d8 s
  | .jnz r8 => Sys2Proof.Machine.execJnz r8 s
  | .ldBC d16 => Sys2Proof.Machine.execLdBC d16 s
  | .ldHLmA => Sys2Proof.Machine.execLdHLmA s
  | .ldA d8 => Sys2Proof.Machine.execLdA d8 s
  | .xorA => Sys2Proof.Machine.execXorA s
  | .jp a16 => Sys2Proof.Machine.execJp a16 s

end Sys2Proof.Machine
end

