-- ==== Sys2Proof/Machine/Step.lean ====
section
/-! DEFINITION. The fetch-decode-execute step (30_encoding.md R66), and the host's way to place an instruction. -/

namespace Sys2Proof.Machine

/-- One Step (R66). A latched CORE answers its latched fault and does nothing (R94); a fault of the fetch is taken (R93). -/
def step (s : State) : Host.Outcome State Fault Refusal :=
  match s.fault with
  | some info => .fault (.latched info)
  | none =>
    match fetchInstr s with
    | .error info => raiseFault info s
    | .ok i => exec i s

/-- `s` with the instruction whose bits are `w` placed where the next Step fetches, on a Bus built around those bytes, and
a CORE ready to Step (R110, log 10). -/
def State.withFetchWord (s : State) (nbits w : Nat) : State :=
  { s with fault := none, bus := s.bus.withBytes s.pc (tableWordBytes nbits w) }

end Sys2Proof.Machine
end

