-- ==== Sys2Proof/Machine/Asm.lean ====
section
/-! DEFINITION. The assembler's spellings (30_encoding.md R72, R73); outside the machine (decision D19). -/

namespace Sys2Proof.Machine

/-- JNZ with its operand written as a signed offset (R72). -/
def assembleJnzOffset (offset : Int) : Option Instr :=
  if jnzOffsetWellFormed offset then some (.jnz (BitVec.ofInt 8 offset)) else none

/-- JNZ at `pc0` with its operand written as a target: `b1 = (t - (pc0 + 2)) mod 256` (R72). -/
def assembleJnzTarget (pc0 target : Addr) : Option Instr :=
  if jnzTargetWellFormed pc0 target then some (.jnz (loByte (target - (pc0 + 2#16)))) else none

/-- A hexadecimal digit. -/
def hexDigit (n : Nat) : Char :=
  ['0', '1', '2', '3', '4', '5', '6', '7', '8', '9', 'A', 'B', 'C', 'D', 'E', 'F'].getD n '?'

/-- A byte's two hexadecimal digits. -/
def hexByte (v : Byte) : List Char :=
  [hexDigit (v.toNat / 16), hexDigit (v.toNat % 16)]

/-- A magnitude up to 128 in decimal, without leading zeros. -/
def decimal (n : Nat) : List Char :=
  (if 100 ≤ n then [hexDigit (n / 100)] else []) ++
  (if 10 ≤ n then [hexDigit (n / 10 % 10)] else []) ++ [hexDigit (n % 10)]

/-- The assembly text of an instruction: an immediate in hex as `0x..`, a JNZ operand as its signed offset (R72, log 9). -/
def assemblyText : Instr → List Char
  | .nop => "NOP".toList
  | .decB => "DEC B".toList
  | .ldB d8 => "LD B,0x".toList ++ hexByte d8
  | .decD => "DEC D".toList
  | .ldC d8 => "LD C,0x".toList ++ hexByte d8
  | .jnz r8 => "JNZ ".toList ++ (if r8.toInt < 0 then ['-'] else []) ++ decimal r8.toInt.natAbs
  | .ldBC d16 => "LD BC,0x".toList ++ hexByte (hiByte d16) ++ hexByte (loByte d16)
  | .ldHLmA => "LD (HL-),A".toList
  | .ldA d8 => "LD A,0x".toList ++ hexByte d8
  | .xorA => "XOR A".toList
  | .jp a16 => "JP 0x".toList ++ hexByte (hiByte a16) ++ hexByte (loByte a16)

end Sys2Proof.Machine
end

