-- ==== Sys2Proof/Machine/Header.lean ====
section
/-! DEFINITION. The cartridge header accessors (20_memory.md section 7): platform information outside the CORE, which no
Step calls. Each reads the content directly, not through the memory port. -/

namespace Sys2Proof.Machine

/-- Why an accessor answers no value. -/
inductive HeaderStop where
  /-- a read at an offset `>= L` (decision D28) -/
  | outOfBounds (offset : Nat)
  /-- `SizeKB` for a size class above 8 (R57, decision D27) -/
  | sizeClassRefused (sizeClass : Byte)
  deriving DecidableEq, Repr

/-- The content byte at an offset. -/
def headerByte (c : Cartridge) (offset : Nat) : Except HeaderStop Byte :=
  if offset < c.len then .ok (Memory.read c.content offset) else .error (.outOfBounds offset)

/-- The content bytes at `count` successive offsets; the lowest offset that fails is the one reported (log 8). -/
def headerBytes (c : Cartridge) : Nat → Nat → Except HeaderStop (List Byte)
  | _, 0 => .ok []
  | offset, count + 1 =>
    match headerByte c offset with
    | .error stop => .error stop
    | .ok b =>
      match headerBytes c (offset + 1) count with
      | .error stop => .error stop
      | .ok bs => .ok (b :: bs)

/-- `Title()` (R55): the 16 bytes at 0x0134 without the trailing 0x00 bytes; a byte of 0x80 or above is kept as it is. -/
def headerTitle (c : Cartridge) : Except HeaderStop (List Byte) :=
  match headerBytes c 0x0134 16 with
  | .error stop => .error stop
  | .ok bs => .ok (bs.rdropWhile (fun b => b == 0x00#8))

/-- The accumulator of R56 over a list of bytes, in 8 bits. -/
def headerChecksum (bs : List Byte) : Byte :=
  bs.foldl (fun acc b => acc - (b + 1#8)) 0x00#8

/-- `ValidateHeaderChecksum()` (R56): the 25 bytes from 0x0134 against the byte at 0x014D. -/
def validateHeaderChecksum (c : Cartridge) : Except HeaderStop Bool :=
  match headerBytes c 0x0134 25 with
  | .error stop => .error stop
  | .ok bs =>
    match headerByte c 0x014D with
    | .error stop => .error stop
    | .ok expected => .ok (headerChecksum bs == expected)

/-- `Entry()` (R57). -/
def headerEntry (c : Cartridge) : Except HeaderStop (List Byte) :=
  headerBytes c 0x0100 4

/-- `NintendoLogo()` (R57). -/
def headerNintendoLogo (c : Cartridge) : Except HeaderStop (List Byte) :=
  headerBytes c 0x0104 48

/-- `SgbFlag()` (R57). -/
def headerSgbFlag (c : Cartridge) : Except HeaderStop Byte :=
  headerByte c 0x0146

/-- `Type()` (R57). -/
def headerType (c : Cartridge) : Except HeaderStop Byte :=
  headerByte c 0x0147

/-- `SizeKB()` (R57): `32 * 2^class`, for classes 0 to 8. -/
def headerSizeKB (c : Cartridge) : Except HeaderStop Nat :=
  match headerByte c 0x0148 with
  | .error stop => .error stop
  | .ok sizeClass =>
    if sizeClass.toNat ≤ 8 then .ok (32 * 2 ^ sizeClass.toNat) else .error (.sizeClassRefused sizeClass)

/-- `DestinationCode()` (R57). -/
def headerDestinationCode (c : Cartridge) : Except HeaderStop Byte :=
  headerByte c 0x014A

/-- `OldLicenseeCode()` (R57). -/
def headerOldLicenseeCode (c : Cartridge) : Except HeaderStop Byte :=
  headerByte c 0x014B

/-- `Version()` (R57). -/
def headerVersion (c : Cartridge) : Except HeaderStop Byte :=
  headerByte c 0x014C

end Sys2Proof.Machine
end

