-- ==== Sys2Proof/Machine/Driver.lean ====
section
/-! DEFINITION. The CORE's interfaces at transaction level and the driver's runs (00_scope.md R7; 70_reset_and_hazards.md
R107, R110 to R113). Observation (R33) is reading the state, and bus construction is the Bus given to `State.resetAt`. -/

namespace Sys2Proof.Machine

/-- The two transactions that can change the CORE (R7, R113). -/
inductive Request where
  /-- Reset, carrying `reset_pc` -/
  | reset (resetPc : Addr)
  /-- one Step -/
  | step
  deriving DecidableEq, Repr

/-- The response to a Step (R7). -/
inductive Response where
  | done
  | faulted (info : FaultInfo)
  deriving DecidableEq, Repr

/-- The response to a Step of `s`: the latch of the state it leaves says it (R94, log 4). None for a refusal, which no Step
answers (R74). -/
def stepResponse (s : State) : Option Response :=
  match step s with
  | .next t =>
    match t.fault with
    | none => some .done
    | some info => some (.faulted info)
  | .fault (.latched info) => some (.faulted info)
  | .refused _ => none

/-- The state after a transaction (R113): a Step of a latched CORE changes nothing (R94). -/
def serve (request : Request) (s : State) : State :=
  match request with
  | .reset resetPc => s.assertReset resetPc
  | .step =>
    match step s with
    | .next t => t
    | .fault _ => s
    | .refused _ => s

/-- The state after transactions issued one after another (R111). -/
def drive : List Request → State → State
  | [], s => s
  | request :: rest, s => drive rest (serve request s)

/-- How a run ends (R112). -/
inductive RunEnd where
  /-- (a): a Step returned a fault; the state is the latched state and the run is terminal -/
  | faulted (info : FaultInfo)
  /-- (b): the driver issues no more Steps -/
  | stoppedByDriver
  deriving DecidableEq, Repr

/-- The end of a run of `fuel` Steps from `s`, and its last state (R112). -/
def runEnd (fuel : Nat) (s : State) : RunEnd × State :=
  let last := drive (List.replicate fuel .step) s
  match last.fault with
  | some info => (.faulted info, last)
  | none => (.stoppedByDriver, last)

end Sys2Proof.Machine
end

