-- ==== Sys2Proof/Safety.lean ====
section
/-! DEFINITION. What counts as a safe state and a safe run, and the shapes the statements share. -/

namespace Sys2Proof.Machine

/-- The CORE is ready to Step: it is either this or latched in a fault (R106). -/
abbrev State.ready (s : State) : Prop :=
  s.fault = none

/-- A record that a latched CORE may hold: its fields are present as R92 says, and its `pc` is the address PC still holds
(R92, R93). -/
abbrev State.latchWf (s : State) : Prop :=
  ∀ info ∈ s.fault, info.wf ∧ info.pc = s.pc

/-- THE INVARIANT of every Step: the Bus is well formed (its memories keep their canonical form) and so is the latch. -/
abbrev State.Inv (s : State) : Prop :=
  s.bus.wf ∧ s.latchWf

/-- What is true of the registers in every state reachable from reset: C clear and F[3:0] zero (R21, R23), SP and E at
their reset value (R27, R17). -/
abbrev State.resetShape (s : State) : Prop :=
  s.flag .c = false ∧ s.f.extractLsb' 0 4 = 0#4 ∧ s.sp = 0x0000#16 ∧ s.e = 0x00#8

/-- The states of the CORE on a Bus after Reset, Steps and further Resets (R107, R113). -/
inductive Reachable (bus : Bus) : State → Prop where
  | reset (resetPc : Addr) : Reachable bus (State.resetAt bus resetPc)
  | step (s t : State) : Reachable bus s → step s = .next t → Reachable bus t
  | resetAgain (s : State) (resetPc : Addr) : Reachable bus s → Reachable bus (s.assertReset resetPc)

/-- The Bus after writes issued in order, each accepted; the first that fails is the error. -/
def Bus.writes : Bus → List (Addr × Byte) → Except MemFault Bus
  | bus, [] => .ok bus
  | bus, w :: rest =>
    match bus.write w.1 w.2 with
    | .ok bus' => bus'.writes rest
    | .error e => .error e

/-- The state of a Bus given by its write function `wr`, after writes issued in order, each accepted (D16). -/
def stateAfter (wr : Nat → Addr → Byte → Except MemFaultKind Nat) : Nat → List (Addr × Byte) → Except MemFaultKind Nat
  | m, [] => .ok m
  | m, w :: rest =>
    match wr m w.1 w.2 with
    | .ok m' => stateAfter wr m' rest
    | .error kind => .error kind

/-- The byte last written to an address, of writes issued in order. -/
def lastWritten : List (Addr × Byte) → Addr → Option Byte
  | [], _ => none
  | w :: rest, addr =>
    match lastWritten rest addr with
    | some v => some v
    | none => if w.1 = addr then some w.2 else none

/-- A Bus of D16 in `n` states: a read function `rd` and a write function `wr` that goes from state to state, such that a written
address returns the byte last written to it (R53). -/
abbrev IsFiniteBus (n start : Nat) (rd : Nat → Addr → Except MemFaultKind Byte)
    (wr : Nat → Addr → Byte → Except MemFaultKind Nat) : Prop :=
  start < n ∧ (∀ m addr v m', m < n → wr m addr v = .ok m' → m' < n) ∧
  ∀ ws m, stateAfter wr start ws = .ok m → ∀ addr v, lastWritten ws addr = some v → rd m addr = .ok v

/-- A run of `fuel` Steps is safe when it raises no fault: a faulted end is never a successful final state (R112). -/
abbrev SafeRun (fuel : Nat) (s : State) : Prop :=
  (runEnd fuel s).1 = .stoppedByDriver

/-- The Step of `s` raises the memory port's error `e` at the named access of the address `addr`, with the opcode where it is
known: nothing but the latch changes (R92, R93). -/
abbrev StepRaisesFetchFault (s : State) (op : Option Byte) (access : Access) (addr : Addr) (e : MemFault) : Prop :=
  step s = .next { s with
    fault := some { kind := e.kind.toFaultKind, pc := s.pc, opcode := op, addr := some addr,
                    access := some access, value := none } }

/-- A Step executes `i` where it fetches the opcode `op` of format F1, and raises the fault of a failed opcode fetch. -/
abbrev StepExecutesF1 (op : Byte) (i : Instr) : Prop :=
  ∀ s : State, s.ready →
    (∀ e, s.bus.read s.pc = .error e → StepRaisesFetchFault s none .fetchOpcode s.pc e) ∧
    (s.bus.read s.pc = .ok op → step s = exec i s)

/-- The same for format F2: the operand byte is read at `pc0 + 1`, whatever the instruction then does. -/
abbrev StepExecutesF2 (op : Byte) (mk : Byte → Instr) : Prop :=
  ∀ s : State, s.ready →
    (∀ e, s.bus.read s.pc = .error e → StepRaisesFetchFault s none .fetchOpcode s.pc e) ∧
    (s.bus.read s.pc = .ok op →
      (∀ e, s.bus.read (s.pc + 1#16) = .error e → StepRaisesFetchFault s (some op) .fetchOperand1 (s.pc + 1#16) e) ∧
      (∀ b1, s.bus.read (s.pc + 1#16) = .ok b1 → step s = exec (mk b1) s))

/-- The same for format F3: the word is `b2 ++ b1`, and the earliest failing access is the one raised (R97). -/
abbrev StepExecutesF3 (op : Byte) (mk : Addr → Instr) : Prop :=
  ∀ s : State, s.ready →
    (∀ e, s.bus.read s.pc = .error e → StepRaisesFetchFault s none .fetchOpcode s.pc e) ∧
    (s.bus.read s.pc = .ok op →
      (∀ e, s.bus.read (s.pc + 1#16) = .error e → StepRaisesFetchFault s (some op) .fetchOperand1 (s.pc + 1#16) e) ∧
      (∀ b1, s.bus.read (s.pc + 1#16) = .ok b1 →
        (∀ e, s.bus.read (s.pc + 2#16) = .error e → StepRaisesFetchFault s (some op) .fetchOperand2 (s.pc + 2#16) e) ∧
        (∀ b2, s.bus.read (s.pc + 2#16) = .ok b2 → step s = exec (mk (b2 ++ b1)) s)))

end Sys2Proof.Machine
end

