-- ==== Sys2Proof/Certificates/Slice0/Obligations.lean ====
section
/-! DEFINITION. The statements for the provers. "D<n>" is a decision of spec/92_eei_decisions.md, the spec's own choice; "log <n>"
is notes/assumptions/<n>.md. -/

open Sys2Proof Sys2Proof.Machine

/-! ### Encoding and dispatch -/

/-- Decoding an encoded instruction gives it back, with every operand at every value, and leaves the bytes after it. -/
def Obligations.EncodedInstructionDecodesBack : Prop :=
  ∀ (i : Instr) (rest : List Byte), decode (encode i ++ rest) = .ok (i, rest)

/-- Bytes that decode are the encoding of what they decode to: each instruction has one encoding. -/
def Obligations.DecodedBytesAreTheEncoding : Prop :=
  ∀ (bs : List Byte) (i : Instr) (rest : List Byte), decode bs = .ok (i, rest) → bs = encode i ++ rest

/-- R65, R74: the dispatcher's answer on every opcode byte, the eleven of the map and all others. -/
def Obligations.DispatcherIsTheOpcodeMap : Prop :=
  ∀ op : Byte, dispatchOpcode op =
    if op = 0x00#8 then some (.f1 .nop) else
    if op = 0x05#8 then some (.f1 .decB) else
    if op = 0x06#8 then some (.f2 .ldB) else
    if op = 0x0D#8 then some (.f1 .decD) else
    if op = 0x0E#8 then some (.f2 .ldC) else
    if op = 0x20#8 then some (.f2 .jnz) else
    if op = 0x21#8 then some (.f3 .ldBC) else
    if op = 0x32#8 then some (.f1 .ldHLmA) else
    if op = 0x3E#8 then some (.f2 .ldA) else
    if op = 0xAF#8 then some (.f1 .xorA) else
    if op = 0xC3#8 then some (.f3 .jp) else none

/-- R60, R61, R62: the operand bytes of each format, for each opcode that uses it: `b1` the data byte or the signed offset,
`b1` the low and `b2` the high byte of the data word or the absolute address. -/
def Obligations.FormatsTakeTheirOperandBytes : Prop :=
  ∀ (b1 b2 : Byte) (rest : List Byte) (w : Addr), w.toNat = b1.toNat + 256 * b2.toNat →
    decode (0x00 :: rest) = .ok (.nop, rest) ∧
    decode (0xAF :: rest) = .ok (.xorA, rest) ∧
    decode (0x05 :: rest) = .ok (.decB, rest) ∧
    decode (0x0D :: rest) = .ok (.decD, rest) ∧
    decode (0x32 :: rest) = .ok (.ldHLmA, rest) ∧
    decode (0x06 :: b1 :: rest) = .ok (.ldB b1, rest) ∧
    decode (0x0E :: b1 :: rest) = .ok (.ldC b1, rest) ∧
    decode (0x3E :: b1 :: rest) = .ok (.ldA b1, rest) ∧
    decode (0x20 :: b1 :: rest) = .ok (.jnz b1, rest) ∧ (signedOffset b1).toInt = b1.toInt ∧
    decode (0x21 :: b1 :: b2 :: rest) = .ok (.ldBC w, rest) ∧
    decode (0xC3 :: b1 :: b2 :: rest) = .ok (.jp w, rest)

/-- Words written out from the encodings of R60 to R62 decode to the instructions they stand for. -/
def Obligations.WrittenOutWordsDecode : Prop :=
  decode [0xC3, 0x50, 0x01] = .ok (.jp 0x0150, []) ∧
  decode [0x20, 0xFE, 0x00] = .ok (.jnz 0xFE, [0x00]) ∧
  decode [0x21, 0x34, 0x12] = .ok (.ldBC 0x1234, []) ∧
  decode [0x32] = .ok (.ldHLmA, []) ∧
  decode [0x0D] = .ok (.decD, []) ∧
  decode [0xCB, 0x37] = .error (.unimplementedOpcode 0xCB)

/-! ### The Step -/

/-- A Step of a ready CORE runs the instruction that the bytes at PC decode to. That nothing is added around `exec` is the model's
choice (DESIGN CHOICE, log 5): section 4 of 30_encoding.md puts the sequential advance of PC in the step, and here the meaning
itself writes the next PC. -/
def Obligations.StepRunsTheDecodedBytes : Prop :=
  ∀ (s : State) (bs : List Byte) (i : Instr), s.ready →
    (∀ (k : Nat) (hk : k < bs.length), s.bus.read (s.pc + BitVec.ofNat 16 k) = .ok bs[k]) →
    decode bs = .ok (i, []) → i.wellFormed = true →
    step s = exec i s

/-- An opcode outside the map is raised at decode, whatever the operand addresses answer. That the fault is a next state that
differs in the latch alone, and the record's form, are decisions D2, D3 and D24 (log 4, log 15). -/
def Obligations.UnlistedOpcodeRaisesUnimplementedOpcode : Prop :=
  ∀ (s : State) (op : Byte), s.ready → s.bus.read s.pc = .ok op →
    op ∉ [0x00#8, 0x05#8, 0x06#8, 0x0D#8, 0x0E#8, 0x20#8, 0x21#8, 0x32#8, 0x3E#8, 0xAF#8, 0xC3#8] →
    step s = .next { s with
      fault := some { kind := .unimplementedOpcode, pc := s.pc, opcode := some op, addr := none,
                      access := none, value := none } }

/-- A ready CORE's Step always answers: a next state, and to the driver `Done` exactly when that state's latch is empty, else
the latched fault. There is no third outcome. How the response is read is log 4. -/
def Obligations.ReadyCoreAnswersDoneOrFault : Prop :=
  ∀ s : State, s.ready → ∃ t, step s = .next t ∧
    (t.fault = none → stepResponse s = some .done) ∧
    (∀ info, t.fault = some info → stepResponse s = some (.faulted info))

/-- Faults are precise (decision D2): a Step whose next state is latched changed nothing but the latch. -/
def Obligations.FaultingStepChangesOnlyTheLatch : Prop :=
  ∀ s t : State, step s = .next t → t.fault ≠ none → t = { s with fault := t.fault }

/-- A latched CORE answers the same fault again (decision D3, log 4). -/
def Obligations.LatchedCoreAnswersItsFault : Prop :=
  ∀ (s : State) (info : FaultInfo), s.fault = some info →
    step s = .fault (.latched info) ∧ stepResponse s = some (.faulted info)

/-- However many Steps the driver issues, a latched CORE stays as it is; Reset, and nothing else the driver can do, leaves
the fault (decisions D3, D20). -/
def Obligations.OnlyResetLeavesAFault : Prop :=
  ∀ (s : State) (requests : List Request) (resetPc : Addr), s.fault ≠ none → (∀ r ∈ requests, r = .step) →
    drive requests s = s ∧ drive (requests ++ [.reset resetPc]) s = State.resetAt s.bus resetPc

/-- A Step that completes leaves in PC the sequential advance or the branch target (decision D5: modulo 2^16). -/
def Obligations.CompletedStepPc : Prop :=
  ∀ s t : State, step s = .next t → t.fault = none →
    ∃ i, fetchInstr s = .ok i ∧
      t.pc = match i with
        | .jp a16 => a16
        | .jnz r8 => if s.f.getLsbD 7 then s.pc + 2#16 else s.pc + 2#16 + r8.signExtend 16
        | _ => s.pc + BitVec.ofNat 16 i.length

/-- What no instruction reads does not matter to a Step: C, E, SP and every bit of F but Z may hold anything, and the Step does
the same to all the rest of the state, Z among it; C and each other bit of F are either kept by both Steps or left the same by
both; E and SP are kept (decision D21 for SP). -/
def Obligations.UnreadStateDoesNotInfluenceAStep : Prop :=
  ∀ (s t : State) (c e f : Byte) (sp : Addr), f.getLsbD 7 = s.f.getLsbD 7 → step s = .next t →
    ∃ t', step { s with c := c, e := e, f := f, sp := sp } = .next t' ∧
      { t' with c := t.c, e := t.e, f := t.f, sp := t.sp } = t ∧
      t'.f.getLsbD 7 = t.f.getLsbD 7 ∧
      ((t'.c = c ∧ t.c = s.c) ∨ t'.c = t.c) ∧
      (∀ k < 7, (t'.f.getLsbD k = f.getLsbD k ∧ t.f.getLsbD k = s.f.getLsbD k) ∨ t'.f.getLsbD k = t.f.getLsbD k) ∧
      (t'.e = e ∧ t.e = s.e) ∧ (t'.sp = sp ∧ t.sp = s.sp)

/-! ### The instructions: result, encoding, and the faults of their fetch -/

/-- NOP. That a fault of the fetch is taken as a latched next state is log 4 (D2, D3, D24). -/
def Obligations.NopOnlyAdvancesPc : Prop :=
  (∀ s : State, exec .nop s = .next { s with pc := s.pc + 1#16 }) ∧ StepExecutesF1 0x00 .nop

/-- JP a16: every target, no flag read, no check of the target. Fetch faults: log 4 (D2, D3, D6, D24). -/
def Obligations.JpSetsPcToTheTarget : Prop :=
  (∀ (a16 : Addr) (s : State), exec (.jp a16) s = .next { s with pc := a16 }) ∧ StepExecutesF3 0xC3 .jp

/-- JNZ r8: taken when Z is clear; the operand byte is read in both cases. Modulo 2^16 (D5); fetch faults: log 4. -/
def Obligations.JnzBranchesWhenZIsClear : Prop :=
  (∀ (r8 : Byte) (s : State), exec (.jnz r8) s =
    .next { s with pc := if s.f.getLsbD 7 then s.pc + 2#16 else s.pc + 2#16 + r8.signExtend 16 }) ∧
  StepExecutesF2 0x20 .jnz

/-- The branch target in whole numbers: `pc0 + 2` plus the offset read as -128 to +127, modulo 2^16 (decision D5). -/
def Obligations.BranchTargetAddsTheSignedOffset : Prop :=
  ∀ (pc0 : Addr) (r8 : Byte),
    -128 ≤ r8.toInt ∧ r8.toInt ≤ 127 ∧
    ((relativeTarget pc0 r8).toNat : Int) = ((pc0.toNat : Int) + 2 + r8.toInt) % 65536

/-- XOR A: A and all four flags cleared, Z too (decision D11), F[3:0] kept. Fetch faults: log 4. -/
def Obligations.XorAClearsAAndAllFlags : Prop :=
  (∀ s : State, exec .xorA s = .next { s with a := 0x00, f := s.f &&& 0x0F#8, pc := s.pc + 1#16 }) ∧
  StepExecutesF1 0xAF .xorA

/-- DEC B: Z iff the result is zero, N set, H iff the low nibble was zero (decision D7), C and F[3:0] kept (decision D8).
Fetch faults: log 4. -/
def Obligations.DecBDecrementsBAndSetsFlags : Prop :=
  (∀ s : State, exec .decB s = .next { s with
    b := s.b - 1#8,
    f := (if s.b - 1#8 = 0#8 then 0x80#8 else 0#8) ||| 0x40#8 ||| (if s.b &&& 0x0F#8 = 0#8 then 0x20#8 else 0#8) |||
         (s.f &&& 0x1F#8),
    pc := s.pc + 1#16 }) ∧
  StepExecutesF1 0x05 .decB

/-- DEC D, opcode 0x0D (decision D13): register C is not changed; flags as DEC B (D7, D8). Fetch faults: log 4. -/
def Obligations.DecDDecrementsDAndSetsFlags : Prop :=
  (∀ s : State, exec .decD s = .next { s with
    d := s.d - 1#8,
    f := (if s.d - 1#8 = 0#8 then 0x80#8 else 0#8) ||| 0x40#8 ||| (if s.d &&& 0x0F#8 = 0#8 then 0x20#8 else 0#8) |||
         (s.f &&& 0x1F#8),
    pc := s.pc + 1#16 }) ∧
  StepExecutesF1 0x0D .decD

/-- LD B,d8: any byte, no flag. Fetch faults: log 4. -/
def Obligations.LdBLoadsTheByte : Prop :=
  (∀ (d8 : Byte) (s : State), exec (.ldB d8) s = .next { s with b := d8, pc := s.pc + 2#16 }) ∧
  StepExecutesF2 0x06 .ldB

/-- LD C,d8: any byte, no flag. Fetch faults: log 4. -/
def Obligations.LdCLoadsTheByte : Prop :=
  (∀ (d8 : Byte) (s : State), exec (.ldC d8) s = .next { s with c := d8, pc := s.pc + 2#16 }) ∧
  StepExecutesF2 0x0E .ldC

/-- LD A,d8: any byte, no flag: 0x00 does not set Z. Fetch faults: log 4. -/
def Obligations.LdALoadsTheByte : Prop :=
  (∀ (d8 : Byte) (s : State), exec (.ldA d8) s = .next { s with a := d8, pc := s.pc + 2#16 }) ∧
  StepExecutesF2 0x3E .ldA

/-- LD BC,d16, opcode 0x21 (decision D12): the high byte to B, the low byte to C, H and L not written. Fetch faults: log 4. -/
def Obligations.LdBCLoadsThePair : Prop :=
  (∀ (b1 b2 : Byte) (s : State), exec (.ldBC (b2 ++ b1)) s = .next { s with b := b2, c := b1, pc := s.pc + 3#16 }) ∧
  StepExecutesF3 0x21 .ldBC

/-- LD (HL-),A on a Bus that accepts the write (decision D10): the store, then HL - 1 modulo 2^16. -/
def Obligations.AcceptedStoreThenHLDecrements : Prop :=
  (∀ (s : State) (bus' : Bus) (hl' : Addr), s.bus.write (s.h ++ s.l) s.a = .ok bus' →
    hl'.toNat = ((s.h ++ s.l : Addr).toNat + 65535) % 65536 →
    exec .ldHLmA s = .next { s with
      bus := bus', h := hl'.extractLsb' 8 8, l := hl'.extractLsb' 0 8, pc := s.pc + 1#16 }) ∧
  StepExecutesF1 0x32 .ldHLmA

/-- LD (HL-),A on a Bus that does not: the port's fault, and HL, PC and memory as they were (decisions D2, D10, D24; log 4). -/
def Obligations.FailedStoreRaisesThePortsFault : Prop :=
  ∀ (s : State) (e : MemFault), s.bus.write (s.h ++ s.l) s.a = .error e →
    exec .ldHLmA s = .next { s with
      fault := some { kind := e.kind.toFaultKind, pc := s.pc, opcode := some 0x32, addr := some (s.h ++ s.l),
                      access := some .store, value := some s.a } }

/-- On the reference bus every store faults, by the range its address lies in (decisions D10, D15; log 4). -/
def Obligations.StoreOnReferenceBusAlwaysFaults : Prop :=
  ∀ s : State, s.bus.isReference →
    ∃ t info, exec .ldHLmA s = .next t ∧ t = { s with fault := some info } ∧ info.addr = some (s.h ++ s.l) ∧
      info.kind =
        if 0x8000 ≤ (s.h ++ s.l : Addr).toNat then .unmapped
        else if s.bus.cart.len ≤ (s.h ++ s.l : Addr).toNat then .outOfBounds
        else .unimplemented

/-- The memory frame of LD (HL-),A: the Bus after it is the one the port's one write of A at HL returns, on which the byte at HL
reads as A and every other address that the Bus holds reads as before; a store that faults leaves the Bus as it is. That an
accepted write does nothing else than make its own address read as the byte, wherever the Bus holds the address, is the model's Bus
(log 1, DESIGN CHOICE and DEDUCED); an address that a port's read function answers is that function's own (D16, log 17). -/
def Obligations.StoreTouchesOnlyTheByteAtHL : Prop :=
  ∀ s t : State, s.bus.wf → exec .ldHLmA s = .next t →
    (∀ addr, addr ≠ s.hlAddr → s.bus.holds addr → t.bus.read addr = s.bus.read addr) ∧
    (∀ bus', s.bus.write s.hlAddr s.a = .ok bus' → t.bus = bus' ∧ t.bus.read s.hlAddr = .ok s.a) ∧
    (∀ e, s.bus.write s.hlAddr s.a = .error e → t.bus = s.bus)

/-! ### Frames and rules over all instructions -/

/-- No instruction but LD (HL-),A touches memory or can raise a fault. -/
def Obligations.OnlyTheStoreTouchesMemoryOrFaults : Prop :=
  ∀ (i : Instr) (s : State), i ≠ .ldHLmA →
    ∃ t, exec i s = .next t ∧ t.fault = s.fault ∧ t.bus.cart = s.bus.cart ∧ ∀ addr, t.bus.read addr = s.bus.read addr

/-- The writers of each register: whatever else an instruction does, it changes no register that is not listed for it. -/
def Obligations.EachRegisterHasItsWriters : Prop :=
  ∀ (i : Instr) (s t : State), exec i s = .next t →
    (t.a ≠ s.a → i = .xorA ∨ ∃ d8, i = .ldA d8) ∧
    (t.b ≠ s.b → i = .decB ∨ (∃ d8, i = .ldB d8) ∨ ∃ d16, i = .ldBC d16) ∧
    (t.c ≠ s.c → (∃ d8, i = .ldC d8) ∨ ∃ d16, i = .ldBC d16) ∧
    (t.d ≠ s.d → i = .decD) ∧
    t.e = s.e ∧
    (t.f ≠ s.f → i = .xorA ∨ i = .decB ∨ i = .decD) ∧
    (t.h ≠ s.h ∨ t.l ≠ s.l → i = .ldHLmA) ∧
    t.sp = s.sp

/-- R20: every writer of Z, its one reader, and its reset value. -/
def Obligations.ZeroFlagWritersAndReader : Prop :=
  (∀ (i : Instr) (s t : State), exec i s = .next t →
    t.flag .z = match i with
      | .xorA => false
      | .decB => decide (t.b = 0x00)
      | .decD => decide (t.d = 0x00)
      | _ => s.flag .z) ∧
  (∀ (r8 : Byte) (s : State), s.flag .z = false → exec (.jnz r8) s = .next (s.setPc (relativeTarget s.pc r8))) ∧
  (∀ (r8 : Byte) (s : State), s.flag .z = true → exec (.jnz r8) s = .next (s.setPc (s.pc + 2#16))) ∧
  (∀ (bus : Bus) (resetPc : Addr), (State.resetAt bus resetPc).flag .z = false)

/-- The writers of N, H and C (decisions D7 and D8 for DEC), and their reset values. -/
def Obligations.OtherFlagWriters : Prop :=
  (∀ (i : Instr) (s t : State), exec i s = .next t →
    (t.flag .n = match i with
      | .xorA => false
      | .decB => true
      | .decD => true
      | _ => s.flag .n) ∧
    (t.flag .h = match i with
      | .xorA => false
      | .decB => decide (s.b.toNat % 16 = 0)
      | .decD => decide (s.d.toNat % 16 = 0)
      | _ => s.flag .h) ∧
    (t.flag .c = match i with
      | .xorA => false
      | _ => s.flag .c)) ∧
  (∀ (bus : Bus) (resetPc : Addr), (State.resetAt bus resetPc).flag .n = false ∧
    (State.resetAt bus resetPc).flag .h = false ∧ (State.resetAt bus resetPc).flag .c = false)

/-- What no Step reaches: E, SP and F[3:0] keep their values, and C is never set (decisions D8, D9, D21). -/
def Obligations.StepLeavesUnreachedState : Prop :=
  ∀ s t : State, step s = .next t →
    t.e = s.e ∧ t.sp = s.sp ∧ t.f.extractLsb' 0 4 = s.f.extractLsb' 0 4 ∧ (t.flag .c = true → s.flag .c = true)

/-- R19, R22: GetFlag after SetFlag, every other bit unchanged, the order of two writes immaterial, the four flags' positions. -/
def Obligations.SetFlagWritesOneBit : Prop :=
  (∀ (f : Byte) (p q : Nat) (b : Bool), p < 8 → q < 8 →
    getFlagBit (setFlagBit f p b) q = if q = p then b else getFlagBit f q) ∧
  (∀ (f : Byte) (p q : Nat) (b b' : Bool), p < 8 → q < 8 → p ≠ q →
    setFlagBit (setFlagBit f p b) q b' = setFlagBit (setFlagBit f q b') p b) ∧
  (∀ (f : Byte) (p : Nat), p < 8 → getFlagBit f p = decide (f.toNat / 2 ^ p % 2 = 1)) ∧
  (∀ s : State, s.flag .z = getFlagBit s.f 7 ∧ s.flag .n = getFlagBit s.f 6 ∧
    s.flag .h = getFlagBit s.f 5 ∧ s.flag .c = getFlagBit s.f 4)

/-- R24: a pair of two registers is a view with the high register as the high byte, and reads as it was written. -/
def Obligations.PairReadsAsWritten : Prop :=
  ∀ (s : State) (hi lo : Reg) (v : Addr), hi ≠ lo →
    (s.getPair hi lo).toNat = (s.getReg hi).toNat * 256 + (s.getReg lo).toNat ∧
    ((s.setPair hi lo v).getReg hi).toNat = v.toNat / 256 ∧
    ((s.setPair hi lo v).getReg lo).toNat = v.toNat % 256 ∧
    (s.setPair hi lo v).getPair hi lo = v ∧
    (∀ r, r ≠ hi → r ≠ lo → (s.setPair hi lo v).getReg r = s.getReg r)

/-! ### Memory and the Bus -/

/-- R36: the reference bus's read, in terms of the cartridge's. -/
def Obligations.ReferenceBusReadsTheCartridgeWindow : Prop :=
  ∀ (cart : Cartridge) (addr : Addr),
    (addr.toNat < 0x8000 → (Bus.reference cart).read addr = cart.read addr) ∧
    (0x8000 ≤ addr.toNat → (Bus.reference cart).read addr = .error { kind := .unmapped, addr := addr })

/-- The reference bus's map for reads and writes (decisions D14 and D15 for the cartridge's bound). -/
def Obligations.ReferenceBusMap : Prop :=
  ∀ (bus : Bus) (addr : Addr) (v : Byte), bus.isReference →
    (addr.toNat < 0x8000 → addr.toNat < bus.cart.len →
      bus.read addr = .ok (Memory.read bus.cart.content addr.toNat) ∧
      bus.write addr v = .error { kind := .unimplemented, addr := addr }) ∧
    (addr.toNat < 0x8000 → bus.cart.len ≤ addr.toNat →
      bus.read addr = .error { kind := .outOfBounds, addr := addr } ∧
      bus.write addr v = .error { kind := .outOfBounds, addr := addr }) ∧
    (0x8000 ≤ addr.toNat →
      bus.read addr = .error { kind := .unmapped, addr := addr } ∧
      bus.write addr v = .error { kind := .unmapped, addr := addr })

/-- An accepted write is seen by the next read of its address and by no read of another address that the Bus holds, keeps the
canonical form, and never changes the cartridge (decision D18; the Bus as data is log 1, and the addresses that a port's read
function answers are log 17). -/
def Obligations.AcceptedWriteReadsBack : Prop :=
  ∀ (bus bus' : Bus) (addr : Addr) (v : Byte), bus.wf → bus.write addr v = .ok bus' →
    bus'.read addr = .ok v ∧ (∀ other, other ≠ addr → bus.holds other → bus'.read other = bus.read other ∧ bus'.holds other) ∧
    bus'.wf ∧
    bus'.cart = bus.cart

/-- The Bus parameter (D16): every pure read function and every write function over finitely many states, each able to return the
three fault kinds by address, by value and by earlier writes, are those of a well-formed Bus of the model, as long as a written
address returns its byte (R53, decision D18). The Bus as data is log 1 and log 17. -/
def Obligations.EveryFiniteBusIsABusOfTheModel : Prop :=
  ∀ (n start : Nat) (rd : Nat → Addr → Except MemFaultKind Byte) (wr : Nat → Addr → Byte → Except MemFaultKind Nat),
    IsFiniteBus n start rd wr →
    ∃ bus : Bus, bus.wf ∧ ∀ ws m, stateAfter wr start ws = .ok m →
      ∃ bus', bus.writes ws = .ok bus' ∧
        (∀ addr b, rd m addr = .ok b → bus'.read addr = .ok b) ∧
        (∀ addr kind, rd m addr = .error kind → bus'.read addr = .error { kind := kind, addr := addr }) ∧
        (∀ addr v kind, wr m addr v = .error kind → bus'.write addr v = .error { kind := kind, addr := addr })

/-- Two memories in canonical form that read alike are the same list (the model's own form, log 3). -/
def Obligations.CanonicalMemoriesAreExtensional : Prop :=
  ∀ (bound : Nat) (m m' : Memory), Memory.wf bound m → Memory.wf bound m' →
    (∀ addr, Memory.read m addr = Memory.read m' addr) → m = m'

/-- A run on the reference bus changes no memory and never moves HL (decisions D10, D15). -/
def Obligations.ReferenceBusStepChangesNoMemory : Prop :=
  ∀ s t : State, s.bus.isReference → step s = .next t → t.bus = s.bus ∧ t.h = s.h ∧ t.l = s.l

/-! ### Invariants, reset and runs -/

/-- From every state that meets the invariant, a Step gives a state that meets it: the memories keep their canonical form, and a
latched record has the fields its kind asks for and names the PC that the CORE still holds (decisions D2, D24; log 3). -/
def Obligations.StepKeepsTheInvariant : Prop :=
  ∀ s t : State, s.Inv → step s = .next t → t.Inv

/-- The state after reset meets the invariant, on every well-formed Bus. -/
def Obligations.ResetMeetsTheInvariant : Prop :=
  (∀ (bus : Bus) (resetPc : Addr), bus.wf → (State.resetAt bus resetPc).Inv) ∧ State.reset.Inv

/-- Every register after Reset, from any state, and the Bus untouched (decision D20). -/
def Obligations.ResetSetsEveryRegister : Prop :=
  ∀ (s : State) (resetPc : Addr), s.assertReset resetPc =
    { a := 0x00, b := 0x00, c := 0x00, d := 0x00, e := 0x00, h := 0x00, l := 0x00, f := 0x00,
      sp := 0x0000, pc := resetPc, fault := none, bus := s.bus }

/-- The reset shape (the C flag and F[3:0] are 0, SP and E hold 0) is kept by a Step of EVERY state that has it, and so is
HL = 0x0000 on the reference bus, with the Bus; reset has both; so has every state reachable from reset, through Steps and further
Resets (decisions D8, D9, D10, D20, D21). -/
def Obligations.ReachableStatesKeepTheResetShape : Prop :=
  (∀ s t : State, s.resetShape → step s = .next t → t.resetShape) ∧
  (∀ s t : State, s.bus.isReference → s.h = 0x00 → s.l = 0x00 → step s = .next t →
    t.h = 0x00 ∧ t.l = 0x00 ∧ t.bus = s.bus) ∧
  (∀ (bus : Bus) (resetPc : Addr), (State.resetAt bus resetPc).resetShape ∧
    (State.resetAt bus resetPc).h = 0x00 ∧ (State.resetAt bus resetPc).l = 0x00) ∧
  (∀ (bus : Bus) (s : State), Reachable bus s →
    s.resetShape ∧ (bus.isReference → s.h = 0x00 ∧ s.l = 0x00 ∧ s.bus = bus))

/-- A fault is never left by running on: a run that is safe to the end was safe at every point (decisions D3, D23). -/
def Obligations.SafeRunsAreSafeThroughout : Prop :=
  ∀ (n m : Nat) (s : State), m ≤ n → SafeRun n s → SafeRun m s

/-- The checking host's run and the driver's run go through the same states (log 4). -/
def Obligations.HostRunIsTheDriversRun : Prop :=
  ∀ (n : Nat) (s t : State), Sys2Proof.core.run n s = .next t → drive (List.replicate n .step) s = t

/-- A word placed for the checking host is the instruction the next Step runs (log 10). -/
def Obligations.PlacedWordIsRun : Prop :=
  ∀ (s : State) (nbits w : Nat) (i : Instr), s.bus.wf → decodeTableWord nbits w = some i →
    step (s.withFetchWord nbits w) = exec i (s.withFetchWord nbits w)

/-! ### The cartridge header and the assembler, outside the CORE -/

/-- R56: the header checksum in whole numbers, for an image long enough to hold it. -/
def Obligations.HeaderChecksumIsModulo256 : Prop :=
  ∀ c : Cartridge, 0x014D < c.len →
    validateHeaderChecksum c = .ok (decide
      ((((List.range 25).map (fun k => (Memory.read c.content (0x0134 + k)).toNat + 1)).sum +
        (Memory.read c.content 0x014D).toNat) % 256 = 0))

/-- The title is the 16 bytes less the trailing zeros, all of them and nothing else (decision D28 for bytes above 0x7F). -/
def Obligations.TitleDropsTrailingZeros : Prop :=
  ∀ c : Cartridge, 0x0143 < c.len →
    ∃ (title : List Byte) (k : Nat), headerTitle c = .ok title ∧
      title ++ List.replicate k 0x00#8 = (List.range 16).map (fun j => Memory.read c.content (0x0134 + j)) ∧
      title.getLast? ≠ some 0x00#8

/-- The other accessors, at their offsets, on an image that holds them; `SizeKB` is refused above class 8 (decision D27). -/
def Obligations.HeaderAccessorsReadTheirOffsets : Prop :=
  ∀ c : Cartridge, 0x014D < c.len →
    headerEntry c = .ok ((List.range 4).map (fun j => Memory.read c.content (0x0100 + j))) ∧
    headerNintendoLogo c = .ok ((List.range 48).map (fun j => Memory.read c.content (0x0104 + j))) ∧
    headerSgbFlag c = .ok (Memory.read c.content 0x0146) ∧
    headerType c = .ok (Memory.read c.content 0x0147) ∧
    headerDestinationCode c = .ok (Memory.read c.content 0x014A) ∧
    headerOldLicenseeCode c = .ok (Memory.read c.content 0x014B) ∧
    headerVersion c = .ok (Memory.read c.content 0x014C) ∧
    (∀ k : Nat, (Memory.read c.content 0x0148).toNat = k → k ≤ 8 → headerSizeKB c = .ok (32 * 2 ^ k)) ∧
    (8 < (Memory.read c.content 0x0148).toNat →
      headerSizeKB c = .error (.sizeClassRefused (Memory.read c.content 0x0148)))

/-- A JNZ written with a target or with an offset assembles to the byte that reaches it, exactly when the distance fits (the
spec's decision D19; the distance across the wrap is the model's choice, log 9). -/
def Obligations.AssembledJnzReachesItsTarget : Prop :=
  (∀ pc0 target : Addr, (target - (pc0 + 2#16)).toInt < -128 ∨ 127 < (target - (pc0 + 2#16)).toInt →
    assembleJnzTarget pc0 target = none) ∧
  (∀ pc0 target : Addr, -128 ≤ (target - (pc0 + 2#16)).toInt → (target - (pc0 + 2#16)).toInt ≤ 127 →
    ∃ r8, assembleJnzTarget pc0 target = some (.jnz r8) ∧ relativeTarget pc0 r8 = target) ∧
  (∀ offset : Int, -128 ≤ offset → offset ≤ 127 → ∃ r8, assembleJnzOffset offset = some (.jnz r8) ∧ r8.toInt = offset) ∧
  (∀ offset : Int, offset < -128 ∨ 127 < offset → assembleJnzOffset offset = none)
end

