-- ==== Sys2Proof/Laws/Memory.lean ====
section
/-! SUPPORT. A memory is read where it was written, is unchanged elsewhere, and keeps its canonical form. -/

namespace Sys2Proof.Machine

@[simp] theorem Memory.read_nil (addr : Nat) : Memory.read [] addr = Config.blankByte := rfl

theorem Memory.read_write_other (m : Memory) {addr other : Nat} (v : Byte) (h : other ≠ addr) :
    Memory.read (Memory.write m addr v) other = Memory.read m other := by
  induction m with
  | nil => unfold Memory.write; split <;> simp [Memory.read, Ne.symm h]
  | cons cell rest ih =>
    unfold Memory.write
    split
    · split <;> simp [Memory.read, Ne.symm h]
    · split
      · rename_i heq
        split <;> simp [Memory.read, ← heq, Ne.symm h]
      · simp [Memory.read, ih]

/-- An address below every listed one reads as blank. -/
theorem Memory.read_of_lt (m : Memory) {addr : Nat} (h : ∀ x ∈ m, addr < x.1) :
    Memory.read m addr = Config.blankByte := by
  induction m with
  | nil => rfl
  | cons cell rest ih =>
    have hc := h cell (by simp)
    have hr := ih (fun x hx => h x (List.mem_cons_of_mem _ hx))
    simp [Memory.read, hr, Nat.ne_of_gt hc]

theorem Memory.read_write_same (bound : Nat) (m : Memory) (addr : Nat) (v : Byte) (hm : Memory.wf bound m) :
    Memory.read (Memory.write m addr v) addr = v := by
  induction m with
  | nil => unfold Memory.write; split <;> simp_all [Memory.read]
  | cons cell rest ih =>
    obtain ⟨hp, hb⟩ := hm
    obtain ⟨hlt, hp'⟩ := List.pairwise_cons.mp hp
    have hrest : Memory.wf bound rest := ⟨hp', fun x hx => hb x (List.mem_cons_of_mem _ hx)⟩
    unfold Memory.write
    split
    · rename_i hlo
      split
      · rename_i hv
        rw [hv]
        refine Memory.read_of_lt _ (fun x hx => ?_)
        rcases List.mem_cons.mp hx with rfl | hx
        · exact hlo
        · exact hlo.trans (hlt x hx)
      · simp [Memory.read]
    · split
      · rename_i heq
        split
        · rename_i hv
          rw [hv]
          exact Memory.read_of_lt _ (fun x hx => heq ▸ hlt x hx)
        · simp [Memory.read]
      · rename_i hne
        simp [Memory.read, Ne.symm hne, ih hrest]

/-- Every address a write lists was listed before or is the one written. -/
theorem Memory.mem_write {m : Memory} {addr : Nat} {v : Byte} {x : Host.Cell} (h : x ∈ Memory.write m addr v) :
    x ∈ m ∨ (x = (addr, v) ∧ v ≠ Config.blankByte) := by
  induction m with
  | nil =>
    unfold Memory.write at h
    split at h <;> simp_all
  | cons cell rest ih =>
    unfold Memory.write at h
    split at h
    · split at h
      · exact .inl h
      · rcases List.mem_cons.mp h with h | h
        · exact .inr ⟨h, ‹_›⟩
        · exact .inl h
    · split at h
      · split at h
        · exact .inl (List.mem_cons_of_mem _ h)
        · rcases List.mem_cons.mp h with h | h
          · exact .inr ⟨h, ‹_›⟩
          · exact .inl (List.mem_cons_of_mem _ h)
      · rcases List.mem_cons.mp h with h | h
        · exact .inl (h ▸ List.mem_cons_self)
        · exact (ih h).imp (List.mem_cons_of_mem _) id

theorem Memory.write_wf {bound : Nat} {m : Memory} {addr : Nat} (v : Byte) (haddr : addr < bound)
    (hm : Memory.wf bound m) : Memory.wf bound (Memory.write m addr v) := by
  refine ⟨?_, fun x hx => ?_⟩
  · induction m with
    | nil => unfold Memory.write; split <;> simp
    | cons cell rest ih =>
      obtain ⟨hp, hb⟩ := hm
      obtain ⟨hlt, hp'⟩ := List.pairwise_cons.mp hp
      have ih' := ih ⟨hp', fun x hx => hb x (List.mem_cons_of_mem _ hx)⟩
      unfold Memory.write
      split
      · rename_i hlo
        split
        · exact hp
        · refine List.pairwise_cons.mpr ⟨fun x hx => ?_, hp⟩
          rcases List.mem_cons.mp hx with rfl | hx
          · exact hlo
          · exact hlo.trans (hlt x hx)
      · split
        · rename_i heq
          split
          · exact hp'
          · exact List.pairwise_cons.mpr ⟨fun x hx => heq ▸ hlt x hx, hp'⟩
        · refine List.pairwise_cons.mpr ⟨fun x hx => ?_, ih'⟩
          rcases Memory.mem_write hx with hx | ⟨rfl, _⟩
          · exact hlt x hx
          · show cell.1 < addr
            omega
  · rcases Memory.mem_write hx with hx | ⟨rfl, hv⟩
    · exact hm.2 x hx
    · exact ⟨haddr, hv⟩

end Sys2Proof.Machine
end

