-- ==== Sys2Proof/Laws/State.lean ====
section
/-! SUPPORT. What each update of the state changes and leaves: one lemma per field per update. -/

namespace Sys2Proof.Machine

variable (s : State) (r r' hi lo : Reg) (v : Byte) (w : Addr) (bus : Bus) (x : Flag) (p : Bool) (n : Nat)

@[simp] theorem getReg_setReg_same : (s.setReg r v).getReg r = v := by cases r <;> rfl
theorem getReg_setReg_other (h : r' ≠ r) : (s.setReg r v).getReg r' = s.getReg r' := by
  cases r <;> cases r' <;> first | rfl | exact absurd rfl h
@[simp] theorem setReg_pc : (s.setReg r v).pc = s.pc := by cases r <;> rfl
@[simp] theorem setReg_sp : (s.setReg r v).sp = s.sp := by cases r <;> rfl
@[simp] theorem setReg_fault : (s.setReg r v).fault = s.fault := by cases r <;> rfl
@[simp] theorem setReg_bus : (s.setReg r v).bus = s.bus := by cases r <;> rfl

@[simp] theorem setPc_getReg : (s.setPc w).getReg r = s.getReg r := by cases r <;> rfl
@[simp] theorem setPc_pc : (s.setPc w).pc = w := rfl
@[simp] theorem setPc_sp : (s.setPc w).sp = s.sp := rfl
@[simp] theorem setPc_fault : (s.setPc w).fault = s.fault := rfl
@[simp] theorem setPc_bus : (s.setPc w).bus = s.bus := rfl

@[simp] theorem advance_getReg : (s.advance n).getReg r = s.getReg r := by cases r <;> rfl
@[simp] theorem advance_pc : (s.advance n).pc = s.pc + BitVec.ofNat 16 n := rfl
@[simp] theorem advance_sp : (s.advance n).sp = s.sp := rfl
@[simp] theorem advance_fault : (s.advance n).fault = s.fault := rfl
@[simp] theorem advance_bus : (s.advance n).bus = s.bus := rfl

@[simp] theorem setBus_getReg : (s.setBus bus).getReg r = s.getReg r := by cases r <;> rfl
@[simp] theorem setBus_pc : (s.setBus bus).pc = s.pc := rfl
@[simp] theorem setBus_sp : (s.setBus bus).sp = s.sp := rfl
@[simp] theorem setBus_fault : (s.setBus bus).fault = s.fault := rfl
@[simp] theorem setBus_bus : (s.setBus bus).bus = bus := rfl

@[simp] theorem setPair_pc : (s.setPair hi lo w).pc = s.pc := by simp [State.setPair]
@[simp] theorem setPair_sp : (s.setPair hi lo w).sp = s.sp := by simp [State.setPair]
@[simp] theorem setPair_fault : (s.setPair hi lo w).fault = s.fault := by simp [State.setPair]
@[simp] theorem setPair_bus : (s.setPair hi lo w).bus = s.bus := by simp [State.setPair]
theorem setPair_getReg_other (hh : r ≠ hi) (hl : r ≠ lo) : (s.setPair hi lo w).getReg r = s.getReg r := by
  simp [State.setPair, getReg_setReg_other _ _ _ _ hh, getReg_setReg_other _ _ _ _ hl]
@[simp] theorem setPair_getReg_lo : (s.setPair hi lo w).getReg lo = loByte w := by simp [State.setPair]
theorem setPair_getReg_hi (h : hi ≠ lo) : (s.setPair hi lo w).getReg hi = hiByte w := by
  simp [State.setPair, getReg_setReg_other _ _ _ _ h]

@[simp] theorem setFlag_pc : (s.setFlag x p).pc = s.pc := by simp [State.setFlag]
@[simp] theorem setFlag_sp : (s.setFlag x p).sp = s.sp := by simp [State.setFlag]
@[simp] theorem setFlag_fault : (s.setFlag x p).fault = s.fault := by simp [State.setFlag]
@[simp] theorem setFlag_bus : (s.setFlag x p).bus = s.bus := by simp [State.setFlag]
@[simp] theorem setFlag_getReg_f : (s.setFlag x p).getReg .f = setFlagBit (s.getReg .f) x.bit p := by
  simp [State.setFlag]
theorem setFlag_getReg_other (h : r ≠ .f) : (s.setFlag x p).getReg r = s.getReg r :=
  getReg_setReg_other _ _ _ _ h

@[simp] theorem setDecFlags_pc (old res : Byte) : (s.setDecFlags old res).pc = s.pc := by simp [State.setDecFlags]
@[simp] theorem setDecFlags_sp (old res : Byte) : (s.setDecFlags old res).sp = s.sp := by simp [State.setDecFlags]
@[simp] theorem setDecFlags_fault (old res : Byte) : (s.setDecFlags old res).fault = s.fault := by
  simp [State.setDecFlags]
@[simp] theorem setDecFlags_bus (old res : Byte) : (s.setDecFlags old res).bus = s.bus := by simp [State.setDecFlags]
theorem setDecFlags_getReg_other (old res : Byte) (h : r ≠ .f) :
    (s.setDecFlags old res).getReg r = s.getReg r := by
  simp [State.setDecFlags, setFlag_getReg_other _ _ _ _ h]

@[simp] theorem clearFlags_pc : s.clearFlags.pc = s.pc := by simp [State.clearFlags]
@[simp] theorem clearFlags_sp : s.clearFlags.sp = s.sp := by simp [State.clearFlags]
@[simp] theorem clearFlags_fault : s.clearFlags.fault = s.fault := by simp [State.clearFlags]
@[simp] theorem clearFlags_bus : s.clearFlags.bus = s.bus := by simp [State.clearFlags]
theorem clearFlags_getReg_other (h : r ≠ .f) : s.clearFlags.getReg r = s.getReg r := by
  simp [State.clearFlags, setFlag_getReg_other _ _ _ _ h]

@[simp] theorem postDecrementHL_pc : s.postDecrementHL.pc = s.pc := by simp [State.postDecrementHL]
@[simp] theorem postDecrementHL_sp : s.postDecrementHL.sp = s.sp := by simp [State.postDecrementHL]
@[simp] theorem postDecrementHL_fault : s.postDecrementHL.fault = s.fault := by simp [State.postDecrementHL]
@[simp] theorem postDecrementHL_bus : s.postDecrementHL.bus = s.bus := by simp [State.postDecrementHL]
theorem postDecrementHL_getReg_other (hh : r ≠ .h) (hl : r ≠ .l) : s.postDecrementHL.getReg r = s.getReg r :=
  setPair_getReg_other _ _ _ _ _ hh hl

end Sys2Proof.Machine
end

