-- ==== Sys2Proof/Laws/Bus.lean ====
section
/-! SUPPORT. What an accepted write does to a Bus, and what the reference bus answers. -/

namespace Sys2Proof.Machine

@[simp] theorem cartWindowEnd_eq : Config.cartWindowEnd = 0x8000 := rfl
@[simp] theorem addressSpaceSize_eq : Config.addressSpaceSize = 0x10000 := rfl

theorem reset_bus_wf : State.reset.bus.wf := by decide

/-! ### The bytes a port holds -/

theorem heldAt_hold (held : List Host.Cell) (addr other : Nat) (v : Byte) :
    heldAt (hold held addr v) other = if other = addr then some v else heldAt held other := by
  induction held with
  | nil => simp [hold, heldAt, eq_comm]
  | cons cell rest ih =>
    unfold hold
    split
    · simp [heldAt, eq_comm]
    · split
      · rename_i hc
        by_cases h : other = addr
        · simp [heldAt, h]
        · simp [heldAt, h, ← hc, Ne.symm h]
      · rename_i hc
        by_cases h : other = addr
        · subst h
          simp [heldAt, ih, Ne.symm hc]
        · simp [heldAt, ih, h]

theorem mem_hold {held : List Host.Cell} {addr : Nat} {v : Byte} {x : Host.Cell} (h : x ∈ hold held addr v) :
    x ∈ held ∨ x = (addr, v) := by
  induction held with
  | nil => exact .inr (by simpa [hold] using h)
  | cons cell rest ih =>
    unfold hold at h
    split at h
    · exact (List.mem_cons.mp h).symm
    · split at h
      · exact (List.mem_cons.mp h).symm.imp (List.mem_cons_of_mem _) id
      · rcases List.mem_cons.mp h with rfl | h
        · exact .inl List.mem_cons_self
        · exact (ih h).imp (List.mem_cons_of_mem _) id

theorem Port.wf_hold {p : Port} (addr : Addr) (v : Byte) (hp : p.wf) :
    ({ p with held := hold p.held addr.toNat v } : Port).wf := by
  obtain ⟨hs, hb⟩ := hp
  have haddr : addr.toNat < Config.addressSpaceSize := addr.isLt
  refine ⟨?_, fun x hx => ?_⟩
  · show (hold p.held addr.toNat v).Pairwise _
    generalize p.held = held at *
    clear hb
    induction held with
    | nil => simp [hold]
    | cons cell rest ih =>
      obtain ⟨hlt, hrest⟩ := List.pairwise_cons.mp hs
      unfold hold
      split
      · rename_i hlo
        refine List.pairwise_cons.mpr ⟨fun x hx => ?_, hs⟩
        rcases List.mem_cons.mp hx with rfl | hx
        · exact hlo
        · exact hlo.trans (hlt x hx)
      · split
        · rename_i heq
          exact List.pairwise_cons.mpr ⟨fun x hx => heq ▸ hlt x hx, hrest⟩
        · refine List.pairwise_cons.mpr ⟨fun x hx => ?_, ih hrest⟩
          rcases mem_hold hx with hx | rfl
          · exact hlt x hx
          · show cell.1 < addr.toNat
            omega
  · rcases mem_hold hx with hx | rfl
    · exact hb x hx
    · exact haddr

/-- Everything an accepted write to a port does. -/
theorem Port.write_ok {p p' : Port} {addr : Addr} {v : Byte} (h : p.write addr v = .ok p') :
    ∃ mode, p' = { p with mode := mode, held := hold p.held addr.toNat v, history := (addr, v) :: p.history } := by
  unfold Port.write at h
  split at h
  · cases h
    exact ⟨_, rfl⟩
  · cases h

theorem Port.write_error_addr {p : Port} {addr : Addr} {v : Byte} {e : MemFault} (h : p.write addr v = .error e) :
    e.addr = addr := by
  unfold Port.write at h
  split at h <;> cases h
  rfl

theorem Port.read_error_addr {p : Port} {addr : Addr} {e : MemFault} (h : p.read addr = .error e) : e.addr = addr := by
  unfold Port.read at h
  split at h
  · cases h
  · split at h <;> cases h
    rfl

/-- A held byte is what a read returns, whatever the read function would answer. -/
theorem Port.read_held {p : Port} {addr : Addr} {v : Byte} (h : heldAt p.held addr.toNat = some v) :
    p.read addr = .ok v := by
  simp [Port.read, h]

/-- A read answered by the read function depends on the rows, the mode, the number and the writes accepted alone. -/
theorem Port.read_hold_other {p : Port} {addr other : Addr} (v : Byte) (h : other ≠ addr) :
    ({ p with held := hold p.held addr.toNat v } : Port).read other = p.read other := by
  have hn : other.toNat ≠ addr.toNat := fun h' => h (BitVec.eq_of_toNat_eq h')
  simp only [Port.read, heldAt_hold, hn, if_false]
  rfl

/-! ### Writes -/

/-- Everything an accepted write can be: a store into a region of RAM, or a write the port accepts. -/
theorem Bus.write_ok {bus bus' : Bus} {addr : Addr} {v : Byte} (h : bus.write addr v = .ok bus') :
    (bus.accessAt addr = some .ram ∧ bus' = { bus with bytes := Memory.write bus.bytes addr.toNat v }) ∨
    (bus.accessAt addr = some .port ∧ ∃ port, bus.port.write addr v = .ok port ∧ bus' = { bus with port := port }) := by
  unfold Bus.write at h
  split at h
  · rename_i hr
    exact .inl ⟨hr, by cases h; rfl⟩
  · cases h
  · cases h
  · rename_i hr
    split at h
    · cases h
      exact .inr ⟨hr, _, ‹_›, rfl⟩
    · cases h
  · split at h <;> cases h

/-- A write that is not accepted fails at the address it was given. -/
theorem Bus.write_error_addr {bus : Bus} {addr : Addr} {v : Byte} {e : MemFault} (h : bus.write addr v = .error e) :
    e.addr = addr := by
  unfold Bus.write Cartridge.writeFault at h
  split at h
  · cases h
  · cases h; rfl
  · cases h; rfl
  · split at h
    · cases h
    · cases h
      exact Port.write_error_addr ‹_›
  · split at h
    · split at h <;> (cases h; rfl)
    · cases h; rfl

/-- A read that is not answered fails at the address it was given. -/
theorem Bus.read_error_addr {bus : Bus} {addr : Addr} {e : MemFault} (h : bus.read addr = .error e) :
    e.addr = addr := by
  unfold Bus.read Cartridge.read at h
  split at h
  · cases h
  · cases h
  · cases h; rfl
  · exact Port.read_error_addr h
  · split at h
    · split at h <;> cases h; rfl
    · cases h; rfl

theorem Bus.write_wf {bus bus' : Bus} {addr : Addr} {v : Byte} (hb : bus.wf) (h : bus.write addr v = .ok bus') :
    bus'.wf := by
  obtain ⟨hc, hr, hm, hp⟩ := hb
  obtain ⟨-, rfl⟩ | ⟨-, port, hw, rfl⟩ := Bus.write_ok h
  · exact ⟨hc, hr, Memory.write_wf v addr.isLt hm, hp⟩
  · obtain ⟨mode, rfl⟩ := Port.write_ok hw
    exact ⟨hc, hr, hm, Port.wf_hold addr v hp⟩

/-- An accepted write changes neither the map nor the cartridge. -/
theorem Bus.write_map {bus bus' : Bus} {addr : Addr} {v : Byte} (h : bus.write addr v = .ok bus') :
    bus'.regions = bus.regions ∧ bus'.cart = bus.cart := by
  obtain ⟨-, rfl⟩ | ⟨-, port, -, rfl⟩ := Bus.write_ok h <;> exact ⟨rfl, rfl⟩

/-- Which rule an address has depends on the regions alone. -/
theorem Bus.accessAt_of_regions {bus bus' : Bus} (h : bus'.regions = bus.regions) (addr : Addr) :
    bus'.accessAt addr = bus.accessAt addr := by
  simp [Bus.accessAt, h]

theorem Bus.accessAt_write {bus bus' : Bus} {addr : Addr} {v : Byte} (h : bus.write addr v = .ok bus') (other : Addr) :
    bus'.accessAt other = bus.accessAt other :=
  Bus.accessAt_of_regions (Bus.write_map h).1 other

/-- A written address returns the written byte, on every Bus (R53). -/
theorem Bus.read_write_same {bus bus' : Bus} {addr : Addr} {v : Byte} (hb : bus.wf) (h : bus.write addr v = .ok bus') :
    bus'.read addr = .ok v := by
  have hacc := Bus.accessAt_write h addr
  obtain ⟨hr, rfl⟩ | ⟨hr, port, hw, rfl⟩ := Bus.write_ok h <;> rw [hr] at hacc
  · simp [Bus.read, hacc, Memory.read_write_same _ _ _ _ hb.2.2.1]
  · obtain ⟨mode, rfl⟩ := Port.write_ok hw
    simpa [Bus.read, hacc] using Port.read_held (by simp [heldAt_hold])

/-- An accepted write leaves every other address that the Bus holds. -/
theorem Bus.read_write_other {bus bus' : Bus} {addr other : Addr} {v : Byte} (hne : other ≠ addr)
    (hholds : bus.holds other) (h : bus.write addr v = .ok bus') : bus'.read other = bus.read other ∧ bus'.holds other := by
  have hacc := Bus.accessAt_write h other
  have hn : other.toNat ≠ addr.toNat := fun h => hne (BitVec.eq_of_toNat_eq h)
  obtain ⟨-, rfl⟩ | ⟨-, port, hw, rfl⟩ := Bus.write_ok h
  · refine ⟨?_, fun hp => hholds (hacc ▸ hp)⟩
    simp [Bus.read, hacc, Memory.read_write_other _ _ hn]
  · obtain ⟨mode, rfl⟩ := Port.write_ok hw
    refine ⟨?_, fun hp => by simpa [heldAt_hold, hn] using hholds (hacc ▸ hp)⟩
    by_cases hp : bus.accessAt other = some .port
    · obtain ⟨b, hb⟩ := Option.ne_none_iff_exists'.mp (hholds hp)
      simp [Bus.read, hacc, hp, Port.read_held hb, Port.read_held (p := { bus.port with
        mode := mode, held := hold bus.port.held addr.toNat v, history := (addr, v) :: bus.port.history }) (addr := other)
        (v := b) (by simpa [heldAt_hold, hn] using hb)]
    · unfold Bus.read
      rw [hacc]
      split <;> simp_all

theorem Bus.accessAt_reference {bus : Bus} (h : bus.isReference) (addr : Addr) : bus.accessAt addr = none := by
  simp [Bus.accessAt, h]

theorem Bus.write_reference {bus : Bus} (h : bus.isReference) (addr : Addr) (v : Byte) :
    bus.write addr v = .error (if addr.toNat < Config.cartWindowEnd then bus.cart.writeFault addr
      else { kind := .unmapped, addr := addr }) := by
  have hacc := Bus.accessAt_reference h addr
  unfold Bus.write
  split <;> rename_i hr <;> rw [hacc] at hr
  · cases hr
  · cases hr
  · cases hr
  · cases hr
  · split <;> rfl

/-- Everything `withByte` does: the address reads as the byte, every other address reads as before, and the Bus stays well
formed. -/
theorem Bus.withByte_spec {bus : Bus} (addr : Addr) (v : Byte) (hb : bus.wf) :
    (bus.withByte addr v).wf ∧ (bus.withByte addr v).read addr = .ok v ∧
    ∀ other, other ≠ addr → (bus.withByte addr v).read other = bus.read other := by
  have hne : ∀ other : Addr, other ≠ addr → other.toNat ≠ addr.toNat := fun o h h' => h (BitVec.eq_of_toNat_eq h')
  obtain ⟨hbytes, hport⟩ := hb.2.2
  have hw := Memory.write_wf v addr.isLt hbytes
  have hs := Memory.read_write_same _ _ addr.toNat v hbytes
  have hcov : ∀ access, ({ base := addr.toNat, size := 1, access := access } : Region).covers addr = true := by
    simp [Region.covers, inRange]
  have hcov' : ∀ access other, other ≠ addr →
      ({ base := addr.toNat, size := 1, access := access } : Region).covers other = false := by
    intro access other h
    have := hne other h
    simp only [Region.covers, inRange, Bool.and_eq_false_iff, decide_eq_false_iff_not]
    omega
  have hone : ∀ access, ({ base := addr.toNat, size := 1, access := access } : Region).wf := by
    have := addr.isLt
    simp only [Region.wf, addressSpaceSize_eq]
    omega
  have hregions : ∀ access, ∀ r ∈ { base := addr.toNat, size := 1, access := access } :: bus.regions, r.wf := by
    intro access r hr
    rcases List.mem_cons.mp hr with rfl | hr
    · exact hone _
    · exact hb.2.1 r hr
  have same : ∀ bus' : Bus, bus'.regions = bus.regions → ∀ other, bus'.accessAt other = bus.accessAt other :=
    fun bus' h other => Bus.accessAt_of_regions h other
  unfold Bus.withByte
  split
  · rename_i hacc
    refine ⟨⟨hb.1, hb.2.1, hw, hport⟩, ?_, fun o ho => ?_⟩
    · simp [Bus.read, same { bus with bytes := Memory.write bus.bytes addr.toNat v } rfl, hacc, hs]
    · simp [Bus.read, same { bus with bytes := Memory.write bus.bytes addr.toNat v } rfl,
        Memory.read_write_other _ _ (hne o ho)]
  · rename_i hacc
    refine ⟨⟨hb.1, hb.2.1, hw, hport⟩, ?_, fun o ho => ?_⟩
    · simp [Bus.read, same { bus with bytes := Memory.write bus.bytes addr.toNat v } rfl, hacc, hs]
    · simp [Bus.read, same { bus with bytes := Memory.write bus.bytes addr.toNat v } rfl,
        Memory.read_write_other _ _ (hne o ho)]
  · refine ⟨⟨hb.1, hregions _, hw, hport⟩, ?_, fun o ho => ?_⟩
    · simp [Bus.read, Bus.accessAt, hcov, hs]
    · simp [Bus.read, Bus.accessAt, hcov' _ o ho, Memory.read_write_other _ _ (hne o ho)]
  · rename_i hacc
    refine ⟨⟨hb.1, hb.2.1, hbytes, Port.wf_hold addr v hport⟩, ?_, fun o ho => ?_⟩
    · simp [Bus.read, same { bus with port := { bus.port with held := hold bus.port.held addr.toNat v } } rfl, hacc,
        Port.read_held (p := { bus.port with held := hold bus.port.held addr.toNat v }) (addr := addr) (v := v)
          (by simp [heldAt_hold])]
    · simp [Bus.read, same { bus with port := { bus.port with held := hold bus.port.held addr.toNat v } } rfl,
        Port.read_hold_other v ho]
  · rename_i hacc
    split
    · rename_i hlt
      refine ⟨⟨⟨hb.1.1, Memory.write_wf v hlt.2 hb.1.2⟩, hb.2.1, hb.2.2⟩, ?_, fun o ho => ?_⟩
      · have hlt1 : addr.toNat < 0x8000 := hlt.1
        simp [Bus.read,
          same { bus with cart := { bus.cart with content := Memory.write bus.cart.content addr.toNat v } } rfl,
          hacc, hlt1, Cartridge.read, hlt.2,
          Memory.read_write_same _ _ _ v hb.1.2]
      · simp [Bus.read,
          same { bus with cart := { bus.cart with content := Memory.write bus.cart.content addr.toNat v } } rfl,
          Cartridge.read,
          Memory.read_write_other _ _ (hne o ho)]
        rfl
    · refine ⟨⟨hb.1, hregions _, hw, hport⟩, ?_, fun o ho => ?_⟩
      · simp [Bus.read, Bus.accessAt, hcov, hs]
      · simp [Bus.read, Bus.accessAt, hcov' _ o ho, Memory.read_write_other _ _ (hne o ho)]

/-- Everything a store through the memory port can do. -/
theorem State.memWrite_ok {s s' : State} {addr : Addr} {v : Byte} (h : s.memWrite addr v = .ok s') :
    ∃ bus', s.bus.write addr v = .ok bus' ∧ s' = s.setBus bus' := by
  unfold State.memWrite at h
  split at h
  · cases h
    exact ⟨_, ‹_›, rfl⟩
  · cases h

theorem State.memWrite_error {s : State} {addr : Addr} {v : Byte} {e : MemFault} (h : s.memWrite addr v = .error e) :
    s.bus.write addr v = .error e := by
  unfold State.memWrite at h
  split at h
  · cases h
  · cases h
    assumption

end Sys2Proof.Machine
end

