-- ==== Sys2Proof/Laws/Decode.lean ====
section
/-! SUPPORT. Halves of words, and what the dispatcher and the decoder answer. -/

namespace Sys2Proof

/-- Each bit of an assembled word, through the two bytes it is made of. -/
theorem imm16_getLsbD (b1 b2 : Byte) (i : Nat) :
    (imm16 b1 b2).getLsbD i = if i < 8 then b1.getLsbD i else b2.getLsbD (i - 8) := by
  show (b2 ++ b1 : BitVec (8 + 8)).getLsbD i = _
  rw [BitVec.getLsbD_append]

theorem imm16_lo_hi (v : Addr) : imm16 (loByte v) (hiByte v) = v := by
  refine BitVec.eq_of_getLsbD_eq fun i hi => ?_
  rw [imm16_getLsbD]
  split
  · simp [loByte, *]
  · have h8 : 8 + (i - 8) = i := by omega
    have hlt : i - 8 < 8 := by omega
    simp [hiByte, h8, hlt]

@[simp] theorem loByte_imm16 (b1 b2 : Byte) : loByte (imm16 b1 b2) = b1 := by
  refine BitVec.eq_of_getLsbD_eq fun i hi => ?_
  simp [loByte, imm16_getLsbD, hi]

@[simp] theorem hiByte_imm16 (b1 b2 : Byte) : hiByte (imm16 b1 b2) = b2 := by
  refine BitVec.eq_of_getLsbD_eq fun i hi => ?_
  simp [hiByte, imm16_getLsbD, hi]

theorem imm16_toNat (b1 b2 : Byte) : (imm16 b1 b2).toNat = b1.toNat + 256 * b2.toNat := by
  show (b2 ++ b1 : BitVec (8 + 8)).toNat = _
  rw [BitVec.toNat_append, ← Nat.shiftLeft_add_eq_or_of_lt b1.isLt, Nat.shiftLeft_eq]
  omega

/-- What an opcode of the map selects is a row of the map. -/
theorem dispatchOpcode_mem {op : Byte} {d : Descriptor} (h : dispatchOpcode op = some d) : (op, d) ∈ opcodeTable := by
  unfold dispatchOpcode at h
  obtain ⟨row, hrow, rfl⟩ := Option.map_eq_some_iff.mp h
  have hop : row.1 = op := by simpa using List.find?_some hrow
  exact hop ▸ List.mem_of_find?_eq_some hrow

end Sys2Proof
end

