-- ==== Sys2Proof/Laws/Flags.lean ====
section
/-! SUPPORT. A flag reads as it was set, and setting it leaves every other bit of F alone. -/

namespace Sys2Proof.Machine

theorem getFlagBit_eq_getLsbD (f : Byte) (p : Nat) : getFlagBit f p = f.getLsbD p := by
  unfold getFlagBit
  rcases h : f.getLsbD p with _ | _
  · have : (f >>> p) &&& 1#8 = 0#8 := by
      ext i hi
      rcases i with _ | i
      · simpa using h
      · simp [BitVec.getElem_one]
    simp [this]
  · have : (f >>> p) &&& 1#8 ≠ 0#8 := by
      intro hz
      have := congrArg (fun v => v.getLsbD 0) hz
      simp [h] at this
    simpa using this

theorem setFlagBit_getLsbD (f : Byte) (p q : Nat) (b : Bool) (hp : p < 8) :
    (setFlagBit f p b).getLsbD q = if q = p then b else f.getLsbD q := by
  unfold setFlagBit
  by_cases hq : q < 8
  · cases b <;> interval_cases p <;> interval_cases q <;> simp
  · have : q ≠ p := by omega
    simp [this, BitVec.getLsbD_of_ge, Nat.not_lt.mp hq]

/-- A flag of the state after one flag is set. -/
@[simp] theorem flag_setFlag (s : State) (x y : Flag) (b : Bool) :
    (s.setFlag x b).flag y = if y = x then b else s.flag y := by
  have hx : x.bit < 8 := by cases x <;> decide
  have hxy : y.bit = x.bit ↔ y = x := by cases x <;> cases y <;> decide
  simp only [State.flag, setFlag_getReg_f, getFlagBit_eq_getLsbD, setFlagBit_getLsbD _ _ _ _ hx, hxy]

@[simp] theorem flag_advance (s : State) (n : Nat) (y : Flag) : (s.advance n).flag y = s.flag y := rfl

@[simp] theorem flag_setPc (s : State) (target : Addr) (y : Flag) : (s.setPc target).flag y = s.flag y := rfl

theorem flag_setReg_other (s : State) (r : Reg) (v : Byte) (y : Flag) (h : r ≠ .f) :
    (s.setReg r v).flag y = s.flag y := by
  simp only [State.flag, getReg_setReg_other s r .f v h.symm]

/-- Every bit of F after DEC's flags are set. -/
theorem setDecFlags_getLsbD (s : State) (old res : Byte) (k : Nat) :
    ((s.setDecFlags old res).getReg .f).getLsbD k =
      if k = 5 then decHalfCarry old else if k = 6 then true else if k = 7 then decZero res else (s.getReg .f).getLsbD k := by
  simp [State.setDecFlags, Flag.bit, setFlagBit_getLsbD]

/-- Every bit of F after XOR A's flags are cleared. -/
theorem clearFlags_getLsbD (s : State) (k : Nat) :
    (s.clearFlags.getReg .f).getLsbD k = (if 4 ≤ k ∧ k < 8 then false else (s.getReg .f).getLsbD k) := by
  simp only [State.clearFlags, setFlag_getReg_f, Flag.bit, setFlagBit_getLsbD _ _ _ _ (by decide : 4 < 8),
    setFlagBit_getLsbD _ _ _ _ (by decide : 5 < 8), setFlagBit_getLsbD _ _ _ _ (by decide : 6 < 8),
    setFlagBit_getLsbD _ _ _ _ (by decide : 7 < 8)]
  by_cases h : 4 ≤ k ∧ k < 8
  · obtain ⟨h4, h8⟩ := h
    interval_cases k <;> simp
  · have h4 : k ≠ 4 ∧ k ≠ 5 ∧ k ≠ 6 ∧ k ≠ 7 := by omega
    simp [h, h4]

end Sys2Proof.Machine
end

