-- ==== Sys2Proof/Laws/PerInstr.lean ====
section
/-! SUPPORT. Per-instruction laws, one lemma per constructor: an instruction's bytes begin with an opcode that the
dispatcher gives a format of the instruction's length, and are as many as that length (R59, R65). -/

namespace Sys2Proof.Laws.Encoding

/-- The bytes of `i` are an opcode of the map and as many operand bytes as its format takes. -/
def Statement (i : Instr) : Prop :=
  ∃ op operands d, encode i = op :: operands ∧ dispatchOpcode op = some d ∧
    d.length = i.length ∧ operands.length + 1 = i.length

theorem nop : Statement .nop := ⟨_, _, _, rfl, rfl, rfl, rfl⟩
theorem decB : Statement .decB := ⟨_, _, _, rfl, rfl, rfl, rfl⟩
theorem ldB (d8 : Byte) : Statement (.ldB d8) := ⟨_, _, _, rfl, rfl, rfl, rfl⟩
theorem decD : Statement .decD := ⟨_, _, _, rfl, rfl, rfl, rfl⟩
theorem ldC (d8 : Byte) : Statement (.ldC d8) := ⟨_, _, _, rfl, rfl, rfl, rfl⟩
theorem jnz (r8 : Byte) : Statement (.jnz r8) := ⟨_, _, _, rfl, rfl, rfl, rfl⟩
theorem ldBC (d16 : Addr) : Statement (.ldBC d16) := ⟨_, _, _, rfl, rfl, rfl, rfl⟩
theorem ldHLmA : Statement .ldHLmA := ⟨_, _, _, rfl, rfl, rfl, rfl⟩
theorem ldA (d8 : Byte) : Statement (.ldA d8) := ⟨_, _, _, rfl, rfl, rfl, rfl⟩
theorem xorA : Statement .xorA := ⟨_, _, _, rfl, rfl, rfl, rfl⟩
theorem jp (a16 : Addr) : Statement (.jp a16) := ⟨_, _, _, rfl, rfl, rfl, rfl⟩

end Sys2Proof.Laws.Encoding
end

