-- ==== Sys2Proof/Laws/Step.lean ====
section
/-! SUPPORT. Once and for all, what a fetch, an instruction and a Step can do. -/

namespace Sys2Proof.Machine

/-! The host's run on any machine, one step at a time. -/

theorem run_next (M : Host.Core) {n : Nat} {s t : M.State} (h : M.step s = .next t) : M.run (n + 1) s = M.run n t := by
  rw [Host.Core.run, h]

theorem run_fault (M : Host.Core) {n : Nat} {s : M.State} {r : M.Fault} (h : M.step s = .fault r) :
    M.run (n + 1) s = .fault r := by
  rw [Host.Core.run, h]

theorem run_refused (M : Host.Core) {n : Nat} {s : M.State} {r : M.Refusal} (h : M.step s = .refused r) :
    M.run (n + 1) s = .refused r := by
  rw [Host.Core.run, h]

/-! Writes issued in order, one more at the end. -/

theorem lastWritten_append (ws : List (Addr × Byte)) (w : Addr × Byte) (addr : Addr) :
    lastWritten (ws ++ [w]) addr = if w.1 = addr then some w.2 else lastWritten ws addr := by
  induction ws with
  | nil => simp [lastWritten]
  | cons w' ws ih =>
    simp only [List.cons_append, lastWritten, ih]
    by_cases h : w.1 = addr <;> simp [h]

theorem stateAfter_append (wr : Nat → Addr → Byte → Except MemFaultKind Nat) (m : Nat) (ws : List (Addr × Byte))
    (w : Addr × Byte) :
    stateAfter wr m (ws ++ [w]) =
      match stateAfter wr m ws with
      | .ok m' => wr m' w.1 w.2
      | .error kind => .error kind := by
  induction ws generalizing m with
  | nil =>
    simp only [List.nil_append, stateAfter]
    split <;> simp_all
  | cons w' ws ih =>
    simp only [List.cons_append, stateAfter]
    split <;> simp_all

theorem Bus.writes_append (bus : Bus) (ws : List (Addr × Byte)) (w : Addr × Byte) :
    bus.writes (ws ++ [w]) =
      match bus.writes ws with
      | .ok bus' => bus'.write w.1 w.2
      | .error e => .error e := by
  induction ws generalizing bus with
  | nil =>
    simp only [List.nil_append, Bus.writes]
    split <;> simp_all
  | cons w' ws ih =>
    simp only [List.cons_append, Bus.writes]
    split <;> simp_all

theorem fetchByte_ok {s : State} {op : Option Byte} {access : Access} {addr : Addr} {b : Byte}
    (h : s.bus.read addr = .ok b) : fetchByte s op access addr = .ok b := by
  simp [fetchByte, State.memRead, h]

theorem fetchByte_error {s : State} {op : Option Byte} {access : Access} {addr : Addr} {e : MemFault}
    (h : s.bus.read addr = .error e) : fetchByte s op access addr = .error (fetchFaultInfo s.pc op access e) := by
  simp [fetchByte, State.memRead, h]

/-- Everything a fetch that fails can report: the port's error at one of three addresses, or an opcode outside the map. -/
theorem fetchInstr_error {s : State} {info : FaultInfo} (h : fetchInstr s = .error info) :
    (∃ op access e addr, s.bus.read addr = .error e ∧ info = fetchFaultInfo s.pc op access e ∧
      (op = none ↔ access = .fetchOpcode) ∧ access ≠ .store) ∨
    (∃ op, s.bus.read s.pc = .ok op ∧ dispatchOpcode op = none ∧ info = unimplementedOpcodeInfo s.pc op) := by
  have hbyte : ∀ {op access addr info'}, fetchByte s op access addr = .error info' →
      ∃ e, s.bus.read addr = .error e ∧ info' = fetchFaultInfo s.pc op access e := by
    intro op access addr info' h
    unfold fetchByte State.memRead at h
    split at h
    · cases h
    · cases h
      exact ⟨_, ‹_›, rfl⟩
  have hok : ∀ {op access addr b}, fetchByte s op access addr = .ok b → s.bus.read addr = .ok b := by
    intro op access addr b h
    unfold fetchByte State.memRead at h
    split at h
    · cases h
      assumption
    · cases h
  unfold fetchInstr at h
  split at h
  · cases h
    obtain ⟨e, he, rfl⟩ := hbyte ‹_›
    exact .inl ⟨_, _, _, _, he, rfl, by simp, by simp⟩
  · rename_i op hop
    split at h
    · cases h
      exact .inr ⟨op, hok hop, ‹_›, rfl⟩
    · cases h
    · split at h
      · cases h
        obtain ⟨e, he, rfl⟩ := hbyte ‹_›
        exact .inl ⟨_, _, _, _, he, rfl, by simp, by simp⟩
      · cases h
    · split at h
      · cases h
        obtain ⟨e, he, rfl⟩ := hbyte ‹_›
        exact .inl ⟨_, _, _, _, he, rfl, by simp, by simp⟩
      · split at h
        · cases h
          obtain ⟨e, he, rfl⟩ := hbyte ‹_›
          exact .inl ⟨_, _, _, _, he, rfl, by simp, by simp⟩
        · cases h

/-- Everything LD (HL-),A can do: an accepted store and the post-decrement, or the port's fault and nothing else. -/
theorem execLdHLmA_cases (s : State) :
    (∃ bus', s.bus.write s.hlAddr (s.getReg .a) = .ok bus' ∧
      execLdHLmA s = .next ((s.setBus bus').postDecrementHL.advance 1)) ∨
    (∃ e, s.bus.write s.hlAddr (s.getReg .a) = .error e ∧
      execLdHLmA s = .next { s with fault := some (storeFaultInfo s.pc opcodeLdHLmA (s.getReg .a) e) }) := by
  unfold execLdHLmA
  split
  · rename_i s' h
    obtain ⟨bus', hb, rfl⟩ := State.memWrite_ok h
    exact .inl ⟨bus', hb, rfl⟩
  · rename_i e h
    exact .inr ⟨e, State.memWrite_error h, rfl⟩

/-- Everything a Step that answers a next state can be: a fault of the fetch taken, or the fetched instruction. -/
theorem step_next {s t : State} (h : step s = .next t) :
    s.ready ∧ ((∃ info, fetchInstr s = .error info ∧ t = { s with fault := some info }) ∨
      ∃ i, fetchInstr s = .ok i ∧ exec i s = .next t) := by
  unfold step at h
  split at h
  · cases h
  · refine ⟨‹_›, ?_⟩
    split at h
    · cases h
      exact .inl ⟨_, ‹_›, rfl⟩
    · exact .inr ⟨_, ‹_›, h⟩

end Sys2Proof.Machine
end

