-- ==== Sys2Proof/Tests/Slice0.lean ====
section
/-! SUPPORT. Tests: expected values from the vectors of spec/95_test_vectors.md (their ids in the comments) and from the encodings
of 30_encoding.md, and a witness for the hypotheses of each statement. -/

namespace Sys2Proof.Tests

open Sys2Proof.Machine

/-- A cartridge of length `len` on the reference bus, PC where the vector starts. -/
def romState (len : Nat) (cells : Memory) (pc : Addr) : State :=
  State.resetAt (Bus.reference { len := len, content := cells }) pc

/-- Test bus T of 95_test_vectors.md. -/
def ramState (cells : Memory) (pc : Addr) : State :=
  State.resetAt { Bus.flatRam with bytes := cells } pc

/-- The next state of an outcome, if it has one. -/
def nextOf (o : Host.Outcome State Fault Refusal) : Option State :=
  match o with
  | .next t => some t
  | .fault _ => none
  | .refused _ => none

/-- What the vectors show of a Step: A, B, C, D, F, HL, PC and the latch of its next state. -/
def shown (s : State) : Option (List Byte × Addr × Addr × Option FaultInfo) :=
  (nextOf (step s)).map (fun t => ([t.a, t.b, t.c, t.d, t.f], t.hlAddr, t.pc, t.fault))

/-! ### Well-formedness: what each check refuses -/

theorem test_wellFormed_every_instruction : ∀ i : Instr, i.wellFormed = true := by
  intro i; cases i <;> rfl

theorem test_wellFormed_offset_refused : jnzOffsetWellFormed 128 = false ∧ jnzOffsetWellFormed (-129) = false := by decide
theorem test_wellFormed_offset_bounds : jnzOffsetWellFormed 127 = true ∧ jnzOffsetWellFormed (-128) = true := by decide
theorem test_wellFormed_target_refused : jnzTargetWellFormed 0x0100 0x0182 = false := by decide
theorem test_wellFormed_target_bounds :
    jnzTargetWellFormed 0x0100 0x0181 = true ∧ jnzTargetWellFormed 0x0100 0x0082 = true := by decide
theorem test_memory_wf_refuses_order : ¬ Memory.wf 0x10000 [(2, 0x01), (1, 0x01)] := by decide
theorem test_memory_wf_refuses_blank_entry : ¬ Memory.wf 0x10000 [(2, 0x00)] := by decide
theorem test_port_wf_refuses_order : ¬ ({ Port.ofId 0 with held := [(2, 0x00), (1, 0x00)] } : Port).wf := by decide
theorem test_cartridge_wf_refuses_long_image : ¬ (Cartridge.blank 0x10001).wf := by decide
theorem test_cartridge_wf_refuses_byte_beyond_length : ¬ ({ len := 4, content := [(4, 0x01)] } : Cartridge).wf := by decide
theorem test_region_wf_refuses_overrun : ¬ ({ base := 0xFFFF, size := 2, access := .ram } : Region).wf := by decide

/-! ### Decoding: words written out from R60 to R62 and R65 -/

theorem test_decode_nop : decode [0b00000000] = .ok (.nop, []) := by decide
theorem test_decode_decB : decode [0b00000101] = .ok (.decB, []) := by decide
theorem test_decode_ldB : decode [0b00000110, 0x03] = .ok (.ldB 0x03, []) := by decide
theorem test_decode_decD : decode [0b00001101] = .ok (.decD, []) := by decide
theorem test_decode_ldC : decode [0b00001110, 0x10] = .ok (.ldC 0x10, []) := by decide
theorem test_decode_jnz : decode [0b00100000, 0xFE] = .ok (.jnz 0xFE, []) := by decide
theorem test_decode_ldBC : decode [0b00100001, 0x34, 0x12] = .ok (.ldBC 0x1234, []) := by decide
theorem test_decode_ldHLmA : decode [0b00110010] = .ok (.ldHLmA, []) := by decide
theorem test_decode_ldA : decode [0b00111110, 0x5A] = .ok (.ldA 0x5A, []) := by decide
theorem test_decode_xorA : decode [0b10101111] = .ok (.xorA, []) := by decide
theorem test_decode_jp : decode [0b11000011, 0x50, 0x01] = .ok (.jp 0x0150, []) := by decide
theorem test_store_record_opcode : encode .ldHLmA = [opcodeLdHLmA] := by decide
theorem test_decode_truncated : decode [0xC3, 0x50] = .error (.truncated 0xC3) := by decide
theorem test_opcode_map_keys_distinct : opcodeTable.Pairwise (fun x y => x.1 ≠ y.1) := by decide
/-- R75: 11 implemented values of 256 -/
theorem test_opcode_map_size : (List.range 256).countP (fun n => (dispatchOpcode (BitVec.ofNat 8 n)).isSome) = 11 := by
  rw [List.countP_eq_length_filter]; rfl
theorem test_decodeTableWord_short_row : decodeTableWord 8 0x3456C3 = some (.jp 0x0000) := by decide
theorem test_decodeTableWord_full_row : decodeTableWord 24 0x1234C3 = some (.jp 0x1234) := by decide

/-! ### Control transfer -/

/-- V-CT-1 and W1 -/
theorem test_nop : shown State.reset = some ([0x00, 0x00, 0x00, 0x00, 0x00], 0x0000, 0x0001, none) := by decide
/-- V-CT-3: the wrap of PC -/
theorem test_nop_wraps : shown (ramState [] 0xFFFF) = some ([0x00, 0x00, 0x00, 0x00, 0x00], 0x0000, 0x0000, none) := by decide
/-- V-CT-7: the operand bytes straddle the end of the address space -/
theorem test_jp_straddles :
    (shown (ramState [(0x0000, 0x34), (0x0001, 0x12), (0xFFFF, 0xC3)] 0xFFFF)).map (fun v => v.2.2.1) = some 0x1234 := by decide
/-- V-CT-8 -/
theorem test_jp_operand2_faults :
    (shown (romState 0x8000 [(0x7FFE, 0xC3)] 0x7FFE)).map (fun v => v.2.2) =
      some (0x7FFE, some { kind := .unmapped, pc := 0x7FFE, opcode := some 0xC3, addr := some 0x8000,
                           access := some .fetchOperand2, value := none }) := by decide
/-- V-CT-12: -128 -/
theorem test_jnz_taken :
    (shown (romState 0x8000 [(0x0100, 0x20), (0x0101, 0x80)] 0x0100)).map (fun v => v.2.2.1) = some 0x0082 := by decide
/-- V-CT-16 -/
theorem test_jnz_not_taken :
    shown { romState 0x8000 [(0x0100, 0x20), (0x0101, 0xFE)] 0x0100 with f := 0xE0 } =
      some ([0x00, 0x00, 0x00, 0x00, 0xE0], 0x0000, 0x0102, none) := by decide

/-! ### ALU -/

/-- V-ALU-1 -/
theorem test_xorA : shown { romState 0x8000 [(0, 0xAF)] 0 with a := 0x5A, f := 0xC0 } =
    some ([0x00, 0x00, 0x00, 0x00, 0x00], 0x0000, 0x0001, none) := by decide
/-- V-ALU-12 -/
theorem test_decB_to_zero : shown { romState 0x8000 [(0, 0x05)] 0 with b := 0x01, f := 0xF0 } =
    some ([0x00, 0x00, 0x00, 0x00, 0xD0], 0x0000, 0x0001, none) := by decide
/-- V-ALU-13 -/
theorem test_decB_wraps : shown { romState 0x8000 [(0, 0x05)] 0 with f := 0x10 } =
    some ([0x00, 0xFF, 0x00, 0x00, 0x70], 0x0000, 0x0001, none) := by decide
/-- V-ALU-6 -/
theorem test_decD_wraps : shown (romState 0x8000 [(0, 0x0D)] 0) =
    some ([0x00, 0x00, 0x00, 0xFF, 0x60], 0x0000, 0x0001, none) := by decide
/-- V-ALU-14 -/
theorem test_decD_leaves_C : shown { romState 0x8000 [(0, 0x0D)] 0 with c := 0x05, d := 0x01 } =
    some ([0x00, 0x00, 0x05, 0x00, 0xC0], 0x0000, 0x0001, none) := by decide

/-! ### Loads and stores -/

/-- V-LD-1 -/
theorem test_ldB : shown (romState 0x8000 [(0x0100, 0x06), (0x0101, 0x03)] 0x0100) =
    some ([0x00, 0x03, 0x00, 0x00, 0x00], 0x0000, 0x0102, none) := by decide
/-- V-LD-2 -/
theorem test_ldC : shown (romState 0x8000 [(0x0200, 0x0E), (0x0201, 0x10)] 0x0200) =
    some ([0x00, 0x00, 0x10, 0x00, 0x00], 0x0000, 0x0202, none) := by decide
/-- V-LD-3 -/
theorem test_ldA_keeps_flags : shown { romState 0x8000 [(0x0100, 0x3E)] 0x0100 with a := 0x11, f := 0x80 } =
    some ([0x00, 0x00, 0x00, 0x00, 0x80], 0x0000, 0x0102, none) := by decide
/-- V-LD-5 -/
theorem test_ldBC : shown (romState 0x8000 [(0x0106, 0x21), (0x0107, 0x34), (0x0108, 0x12)] 0x0106) =
    some ([0x00, 0x12, 0x34, 0x00, 0x00], 0x0000, 0x0109, none) := by decide
/-- V-LD-7 -/
theorem test_ldA_operand_out_of_bounds :
    (shown (romState 0x0010 [(0x000F, 0x3E)] 0x000F)).map (fun v => v.2.2) =
      some (0x000F, some { kind := .outOfBounds, pc := 0x000F, opcode := some 0x3E, addr := some 0x0010,
                           access := some .fetchOperand1, value := none }) := by decide
/-- V-LD-12 -/
theorem test_store_on_ram :
    (nextOf (step { ramState [(0x1000, 0x32)] 0x1000 with a := 0x77 })).map (fun t => (t.bus.bytes, t.hlAddr, t.pc, t.fault)) =
      some ([(0x0000, 0x77), (0x1000, 0x32)], 0xFFFF, 0x1001, none) := by decide
/-- V-LD-9 -/
theorem test_store_out_of_bounds :
    shown { romState 0x4000 [(0, 0x32)] 0 with a := 0x5A, h := 0x7F, l := 0xFF } =
      some ([0x5A, 0x00, 0x00, 0x00, 0x00], 0x7FFF, 0x0000,
        some { kind := .outOfBounds, pc := 0x0000, opcode := some 0x32, addr := some 0x7FFF, access := some .store,
               value := some 0x5A }) := by decide

/-- A Bus of D16 that is no fixed map: the register at 0xFF00 accepts one write, of a value below 0x80, and the write locks the
bytes at 0xC000 to 0xCFFF; it holds the program `32` at 0x0100. -/
def lockingBus : Bus :=
  Bus.ofPort { Port.ofId 1 with
    reads := [{ mode := 0, base := 0xC000, size := 0x1000, answer := .ok 0x5A },
              { mode := 1, base := 0xC000, size := 0x1000, answer := .error .unmapped }],
    writes := [{ mode := 0, base := 0xFF00, size := 1, minValue := 0x00, maxValue := 0x7F, answer := .ok 1 },
               { mode := 0, base := 0xFF00, size := 1, minValue := 0x80, maxValue := 0xFF, answer := .error .outOfBounds },
               { mode := 1, base := 0x0000, size := 0x10000, minValue := 0x00, maxValue := 0xFF,
                 answer := .error .unimplemented }],
    held := [(0x0100, 0x32)] }

/-- A CORE about to store `v` at 0xFF00 of that Bus. -/
def lockingState (v : Byte) : State :=
  { State.resetAt lockingBus 0x0100 with a := v, h := 0xFF }

/-- R34, D16: a fault that depends on the value written -/
theorem test_port_fault_by_value : (nextOf (step (lockingState 0x7F))).map State.faultCode = some 0 ∧
    (nextOf (step (lockingState 0x80))).map State.faultCode = some 3 := by decide
/-- R34, R53, D16: faults that depend on an earlier access, and the written byte read back -/
theorem test_port_fault_by_history : lockingBus.read 0xC123 = .ok 0x5A ∧
    ((nextOf (step (lockingState 0x7F))).map (fun t =>
      (t.bus.read 0xC123, t.bus.read 0xFF00, t.bus.read 0x0100, (nextOf (exec .ldHLmA t)).map State.faultCode))) =
      some (.error { kind := .unmapped, addr := 0xC123 }, .ok 0x7F, .ok 0x32, some 4) := by decide

/-! ### Dispatcher, faults and the driver -/

/-- V-DSP-1 -/
theorem test_cb_is_no_extension : (shown (romState 0x8000 [(0, 0xCB)] 0)).map (fun v => v.2.2) =
    some (0x0000, some { kind := .unimplementedOpcode, pc := 0x0000, opcode := some 0xCB, addr := none, access := none,
                         value := none }) := by decide
/-- V-DSP-7 -/
theorem test_latched_again : (serve .step (serve .step (romState 0x8000 [(0, 0x76)] 0)) = serve .step (romState 0x8000 [(0, 0x76)] 0)) ∧
    stepResponse (serve .step (romState 0x8000 [(0, 0x76)] 0)) =
      some (.faulted { kind := .unimplementedOpcode, pc := 0x0000, opcode := some 0x76, addr := none, access := none,
                       value := none }) := by decide
/-- V-DSP-8 -/
theorem test_reset_after_fault : drive [.step, .reset Config.conventionalResetPc] (romState 0x8000 [(0, 0x76)] 0) =
    romState 0x8000 [(0, 0x76)] 0x0100 := by decide
/-- P5: the run ends faulted, code 2 -/
theorem test_run_end_faulted : (runEnd 3 (romState 0x8000 [(0x0100, 0xC3), (0x0102, 0x90)] 0x0100)).2.faultCode = 2 ∧
    (runEnd 1 (romState 0x8000 [(0x0100, 0xC3), (0x0102, 0x90)] 0x0100)).1 = .stoppedByDriver := by decide

/-! ### Register file -/

/-- V-RF-1 to V-RF-3 -/
theorem test_setFlag : setFlagBit 0x00 7 true = 0x80 ∧ setFlagBit 0xF0 5 false = 0xD0 ∧ setFlagBit 0x0F 4 true = 0x1F := by
  decide
/-- V-RF-4 -/
theorem test_setPair : (State.reset.setPair .b .c 0xBEEF).b = 0xBE ∧ (State.reset.setPair .b .c 0xBEEF).c = 0xEF := by decide

/-! ### Cartridge header -/

/-- V-HDR-1 -/
theorem test_header_blank : headerChecksum (List.replicate 25 0x00) = 0xE7 ∧
    validateHeaderChecksum (Cartridge.blank 0x8000) = .ok false ∧ headerTitle (Cartridge.blank 0x8000) = .ok [] ∧
    headerSizeKB (Cartridge.blank 0x8000) = .ok 32 := by decide
/-- V-HDR-4 -/
theorem test_header_title :
    let c : Cartridge := { len := 0x8000, content := [(0x134, 0x54), (0x135, 0x45), (0x136, 0x54), (0x137, 0x52),
      (0x138, 0x49), (0x139, 0x53), (0x14D, 0x0C)] }
    headerTitle c = .ok [0x54, 0x45, 0x54, 0x52, 0x49, 0x53] ∧ validateHeaderChecksum c = .ok true := by decide
/-- V-HDR-6 -/
theorem test_header_size : headerSizeKB { len := 0x8000, content := [(0x148, 0x08)] } = .ok 8192 ∧
    headerSizeKB { len := 0x8000, content := [(0x148, 0x09)] } = .error (.sizeClassRefused 0x09) := by decide

/-! ### Assembler: R72's own example, and a target -/

theorem test_assemble_offset : assembleJnzOffset (-3) = some (.jnz 0xFD) := by decide
theorem test_assemble_target : assembleJnzTarget 0x0103 0x0102 = some (.jnz 0xFD) := by decide
theorem test_assembly_text : assemblyText (.jnz 0xFD) = ['J', 'N', 'Z', ' ', '-', '3'] ∧
    assemblyText (.jp 0x0150) = ['J', 'P', ' ', '0', 'x', '0', '1', '5', '0'] := by decide

/-! ### The checking host's entry -/

theorem test_withFetchWord_unmapped_pc :
    (shown ((State.resetAt (Bus.reference (Cartridge.blank 0)) 0xFFFF).withFetchWord 24 0x1234C3)).map (fun v => v.2.2) =
      some (0x1234, none) := by decide

/-! ### Witnesses: the hypotheses of each statement are met together -/

/-- A ready CORE on the reference bus at 0x7FFE holding `C3 50`, whose third byte would be at 0x8000. -/
def edge : State := romState 0x8000 [(0x7FFE, 0xC3), (0x7FFF, 0x50)] 0x7FFE

/-- A CORE latched by the opcode 0xCB. -/
def latched : State := serve .step (romState 0x8000 [(0, 0xCB)] 0)

/-- A CORE on test bus T about to store 0x77 at 0x0000, the lowest address. -/
def storing : State := { ramState [(0x1000, 0x32)] 0x1000 with a := 0x77 }

theorem witness_DecodedBytesAreTheEncoding : ∃ bs i rest, decode bs = .ok (i, rest) :=
  ⟨[0x20, 0xFE, 0xAF], .jnz 0xFE, [0xAF], by decide⟩
theorem witness_FormatsTakeTheirOperandBytes : (0xFF00#16).toNat = (0x00#8).toNat + 256 * (0xFF#8).toNat := by decide
theorem witness_StepRunsTheDecodedBytes :
    (romState 0x8000 [(0x0100, 0x06), (0x0101, 0x03)] 0x0100).ready ∧
    (∀ (k : Nat) (hk : k < [0x06#8, 0x03#8].length),
      (romState 0x8000 [(0x0100, 0x06), (0x0101, 0x03)] 0x0100).bus.read (0x0100#16 + BitVec.ofNat 16 k) =
        .ok [0x06#8, 0x03#8][k]) ∧
    decode [0x06, 0x03] = .ok (.ldB 0x03, []) ∧ (Instr.ldB 0x03).wellFormed = true := by decide
theorem witness_UnlistedOpcodeRaisesUnimplementedOpcode :
    (romState 0x8000 [(0x7FFF, 0xFF)] 0x7FFF).ready ∧
    (romState 0x8000 [(0x7FFF, 0xFF)] 0x7FFF).bus.read 0x7FFF = .ok 0xFF ∧
    0xFF#8 ∉ [0x00#8, 0x05#8, 0x06#8, 0x0D#8, 0x0E#8, 0x20#8, 0x21#8, 0x32#8, 0x3E#8, 0xAF#8, 0xC3#8] := by decide
/-- One state that completes and one that faults: both clauses of the response. -/
theorem witness_ReadyCoreAnswersDoneOrFault :
    State.reset.ready ∧ (∃ t, step State.reset = .next t ∧ t.fault = none) ∧
    edge.ready ∧ ∃ t info, step edge = .next t ∧ t.fault = some info :=
  ⟨rfl, ⟨_, rfl, rfl⟩, rfl, ⟨_, _, rfl, rfl⟩⟩
theorem witness_FaultingStepChangesOnlyTheLatch : ∃ t, step edge = .next t ∧ t.fault ≠ none :=
  ⟨_, rfl, by decide⟩
theorem witness_LatchedCoreAnswersItsFault : ∃ info, latched.fault = some info := ⟨_, rfl⟩
theorem witness_OnlyResetLeavesAFault : latched.fault ≠ none ∧ ∀ r ∈ [Request.step, Request.step], r = .step := by decide
theorem witness_CompletedStepPc : ∃ t, step State.reset = .next t ∧ t.fault = none := ⟨_, rfl, rfl⟩
theorem witness_UnreadStateDoesNotInfluenceAStep :
    (0x7F#8).getLsbD 7 = State.reset.f.getLsbD 7 ∧ ∃ t, step State.reset = .next t := ⟨by decide, _, rfl⟩
/-- Format F1, for every opcode: a failed opcode fetch at the first unmapped address, and a fetched opcode. -/
theorem witness_StepExecutesF1 (op : Byte) :
    ((romState 0x8000 [] 0x8000).ready ∧
      (romState 0x8000 [] 0x8000).bus.read 0x8000 = .error { kind := .unmapped, addr := 0x8000 }) ∧
    ((romState 0x8000 [(0x7FFF, op)] 0x7FFF).ready ∧ (romState 0x8000 [(0x7FFF, op)] 0x7FFF).bus.read 0x7FFF = .ok op) :=
  ⟨⟨rfl, rfl⟩, rfl, rfl⟩
/-- Format F2: a fetched opcode whose operand is past the window, and one whose operand is there. -/
theorem witness_StepExecutesF2 (op b1 : Byte) :
    ((romState 0x8000 [(0x7FFF, op)] 0x7FFF).ready ∧ (romState 0x8000 [(0x7FFF, op)] 0x7FFF).bus.read 0x7FFF = .ok op ∧
      (romState 0x8000 [(0x7FFF, op)] 0x7FFF).bus.read 0x8000 = .error { kind := .unmapped, addr := 0x8000 }) ∧
    ((romState 0x8000 [(0x7FFE, op), (0x7FFF, b1)] 0x7FFE).ready ∧
      (romState 0x8000 [(0x7FFE, op), (0x7FFF, b1)] 0x7FFE).bus.read 0x7FFE = .ok op ∧
      (romState 0x8000 [(0x7FFE, op), (0x7FFF, b1)] 0x7FFE).bus.read 0x7FFF = .ok b1) :=
  ⟨⟨rfl, rfl, rfl⟩, rfl, rfl, rfl⟩
/-- Format F3: the second operand missing, and both there; the first missing is F2's. -/
theorem witness_StepExecutesF3 (op b1 b2 : Byte) :
    ((romState 0x8000 [(0x7FFE, op), (0x7FFF, b1)] 0x7FFE).ready ∧
      (romState 0x8000 [(0x7FFE, op), (0x7FFF, b1)] 0x7FFE).bus.read 0x7FFE = .ok op ∧
      (romState 0x8000 [(0x7FFE, op), (0x7FFF, b1)] 0x7FFE).bus.read 0x7FFF = .ok b1 ∧
      (romState 0x8000 [(0x7FFE, op), (0x7FFF, b1)] 0x7FFE).bus.read 0x8000 =
        .error { kind := .unmapped, addr := 0x8000 }) ∧
    ((romState 0x8000 [(0x7FFD, op), (0x7FFE, b1), (0x7FFF, b2)] 0x7FFD).ready ∧
      (romState 0x8000 [(0x7FFD, op), (0x7FFE, b1), (0x7FFF, b2)] 0x7FFD).bus.read 0x7FFD = .ok op ∧
      (romState 0x8000 [(0x7FFD, op), (0x7FFE, b1), (0x7FFF, b2)] 0x7FFD).bus.read 0x7FFE = .ok b1 ∧
      (romState 0x8000 [(0x7FFD, op), (0x7FFE, b1), (0x7FFF, b2)] 0x7FFD).bus.read 0x7FFF = .ok b2) :=
  ⟨⟨rfl, rfl, rfl, rfl⟩, rfl, rfl, rfl, rfl⟩
theorem witness_AcceptedStoreThenHLDecrements : ∃ bus', storing.bus.write (storing.h ++ storing.l) storing.a = .ok bus' ∧
    (0xFFFF#16).toNat = ((storing.h ++ storing.l : Addr).toNat + 65535) % 65536 := ⟨_, rfl, by decide⟩
theorem witness_FailedStoreRaisesThePortsFault : ∃ e, State.reset.bus.write (State.reset.h ++ State.reset.l) State.reset.a = .error e :=
  ⟨_, rfl⟩
/-- The three ranges, each at its boundary. -/
theorem witness_StoreOnReferenceBusAlwaysFaults :
    (romState 0x4000 [] 0).bus.isReference ∧
    (nextOf (exec .ldHLmA { romState 0x4000 [] 0 with h := 0x3F, l := 0xFF })).map State.faultCode = some 4 ∧
    (nextOf (exec .ldHLmA { romState 0x4000 [] 0 with h := 0x40 })).map State.faultCode = some 3 ∧
    (nextOf (exec .ldHLmA { romState 0x4000 [] 0 with h := 0x7F, l := 0xFF })).map State.faultCode = some 3 ∧
    (nextOf (exec .ldHLmA { romState 0x4000 [] 0 with h := 0x80 })).map State.faultCode = some 2 := by decide
theorem witness_StoreTouchesOnlyTheByteAtHL : storing.bus.wf ∧ (∃ t, exec .ldHLmA storing = .next t) ∧
    (0xFFFF#16) ≠ storing.hlAddr ∧ storing.bus.holds 0xFFFF ∧ ∃ bus', storing.bus.write storing.hlAddr storing.a = .ok bus' :=
  ⟨by decide, ⟨_, rfl⟩, by decide, by decide, ⟨_, rfl⟩⟩
/-- The same on a port, where one address is held and another is not. -/
theorem witness_StoreTouchesOnlyTheByteAtHL_on_a_port : lockingBus.wf ∧ (∃ t, exec .ldHLmA (lockingState 0x7F) = .next t) ∧
    (0x0100#16) ≠ (lockingState 0x7F).hlAddr ∧ lockingBus.holds 0x0100 ∧ ¬ lockingBus.holds 0xC000 :=
  ⟨by decide, ⟨_, rfl⟩, by decide, by decide, by decide⟩
theorem witness_StoreTouchesNothingWhenItFaults : State.reset.bus.wf ∧ (∃ t, exec .ldHLmA State.reset = .next t) ∧
    ∃ e, State.reset.bus.write State.reset.hlAddr State.reset.a = .error e :=
  ⟨by decide, ⟨_, rfl⟩, ⟨_, rfl⟩⟩
theorem witness_OnlyTheStoreTouchesMemoryOrFaults : Instr.jp 0xFFFF ≠ .ldHLmA := by decide
theorem witness_EachRegisterHasItsWriters :
    (∃ t, exec .decD State.reset = .next t ∧ t.d ≠ State.reset.d ∧ t.f ≠ State.reset.f) ∧
    (∃ t, exec (.ldBC 0x1234) State.reset = .next t ∧ t.b ≠ State.reset.b ∧ t.c ≠ State.reset.c) ∧
    (∃ t, exec (.ldA 0x01) State.reset = .next t ∧ t.a ≠ State.reset.a) ∧
    (∃ t, exec .ldHLmA storing = .next t ∧ t.h ≠ storing.h) :=
  ⟨⟨_, rfl, by decide⟩, ⟨_, rfl, by decide⟩, ⟨_, rfl, by decide⟩, ⟨_, rfl, by decide⟩⟩
theorem witness_ZeroFlagWritersAndReader : (∃ t, exec .decB State.reset = .next t) ∧ State.reset.flag .z = false ∧
    ({ State.reset with f := 0x80 } : State).flag .z = true := ⟨⟨_, rfl⟩, by decide, by decide⟩
theorem witness_OtherFlagWriters : ∃ t, exec .decB { State.reset with f := 0x10 } = .next t := ⟨_, rfl⟩
theorem witness_StepLeavesUnreachedState :
    ∃ t, step { State.reset with f := 0x1F, e := 0x01, sp := 0xFFFE } = .next t ∧ t.flag .c = true := ⟨_, rfl, by decide⟩
theorem witness_SetFlagWritesOneBit : 0 < 8 ∧ 7 < 8 ∧ (0 ≠ 7) := by decide
theorem witness_PairReadsAsWritten : Reg.h ≠ .l ∧ Reg.e ≠ .h ∧ Reg.e ≠ .l := by decide
theorem witness_ReferenceBusReadsTheCartridgeWindow : (0x7FFF#16).toNat < 0x8000 ∧ 0x8000 ≤ (0x8000#16).toNat := by decide
theorem witness_ReferenceBusMap : (Bus.reference (Cartridge.blank 0x4000)).isReference ∧
    ((0x3FFF#16).toNat < 0x8000 ∧ (0x3FFF#16).toNat < 0x4000) ∧
    ((0x4000#16).toNat < 0x8000 ∧ 0x4000 ≤ (0x4000#16).toNat) ∧ 0x8000 ≤ (0x8000#16).toNat := by decide
theorem witness_AcceptedWriteReadsBack :
    (Bus.flatRam.wf ∧ (∃ bus', Bus.flatRam.write 0xFFFF 0xAA = .ok bus') ∧ 0x0000#16 ≠ 0xFFFF#16 ∧ Bus.flatRam.holds 0x0000) ∧
    (lockingBus.wf ∧ (∃ bus', lockingBus.write 0xFF00 0x00 = .ok bus') ∧ 0x0100#16 ≠ 0xFF00#16 ∧ lockingBus.holds 0x0100) :=
  ⟨⟨by decide, ⟨_, rfl⟩, by decide, by decide⟩, by decide, ⟨_, rfl⟩, by decide, by decide⟩
/-- A Bus in two states that accepts one write of one value at one address. -/
theorem witness_EveryFiniteBusIsABusOfTheModel :
    IsFiniteBus 2 0 (fun m _ => if m = 1 then .ok 0x01 else .error .unmapped)
      (fun m addr v => if m = 0 ∧ addr = 0xFF00 ∧ v = 0x01 then .ok 1 else .error .unimplemented) := by
  refine ⟨by decide, fun m addr v m' _ h => ?_, fun ws m h addr v hv => ?_⟩
  · dsimp only at h
    split at h <;> cases h
    decide
  · rcases ws with _ | ⟨w, _ | ⟨w', rest⟩⟩
    · cases hv
    · simp only [stateAfter] at h
      split at h <;> rename_i hw
      · split at hw <;> cases hw
        cases h
        rename_i hcond
        simp only [lastWritten, Option.ite_none_right_eq_some, Option.some.injEq] at hv
        simp [← hv.2, hcond.2.2]
      · cases h
    · simp only [stateAfter] at h
      split at h <;> rename_i hw
      · split at hw <;> cases hw
        simp at h
      · cases h
theorem witness_CanonicalMemoriesAreExtensional : Memory.wf 0x10000 [(0, 0x77), (0xFFFF, 0xAA)] ∧
    Memory.wf 0x10000 (Memory.write [(0xFFFF, 0xAA)] 0 0x77) ∧
    ∀ addr, Memory.read [(0, 0x77), (0xFFFF, 0xAA)] addr = Memory.read (Memory.write [(0xFFFF, 0xAA)] 0 0x77) addr :=
  ⟨by decide, by decide, fun _ => rfl⟩
theorem witness_ReferenceBusStepChangesNoMemory :
    (romState 0x8000 [(0, 0x32)] 0).bus.isReference ∧ ∃ t, step (romState 0x8000 [(0, 0x32)] 0) = .next t := ⟨rfl, _, rfl⟩
/-- A state that meets the invariant and completes, and one that meets it and is latched by its Step. -/
theorem witness_StepKeepsTheInvariant :
    (storing.Inv ∧ ∃ t, step storing = .next t) ∧ (edge.Inv ∧ ∃ t, step edge = .next t) :=
  ⟨⟨by decide, _, rfl⟩, ⟨by decide, _, rfl⟩⟩
theorem witness_ResetMeetsTheInvariant : Bus.flatRam.wf := by decide
theorem witness_ReachableStatesKeepTheResetShape :
    (State.reset.resetShape ∧ State.reset.bus.isReference ∧ State.reset.h = 0x00 ∧ State.reset.l = 0x00 ∧
      ∃ t, step State.reset = .next t) ∧
    Reachable (Bus.reference (Cartridge.blank 0x8000)) (serve .step State.reset) ∧
    (Bus.reference (Cartridge.blank 0x8000)).isReference :=
  ⟨⟨by decide, rfl, rfl, rfl, _, rfl⟩, .step State.reset _ (.reset 0x0000) rfl, rfl⟩
theorem witness_SafeRunsAreSafeThroughout : 1 ≤ 2 ∧ SafeRun 2 State.reset := by decide
theorem witness_HostRunIsTheDriversRun : ∃ t, Sys2Proof.core.run 2 State.reset = .next t := ⟨_, rfl⟩
theorem witness_PlacedWordIsRun : State.reset.bus.wf ∧ decodeTableWord 8 0x32 = some .ldHLmA := by decide
theorem witness_HeaderChecksumIsModulo256 : 0x014D < (Cartridge.blank 0x014E).len := by decide
theorem witness_TitleDropsTrailingZeros : 0x0143 < (Cartridge.blank 0x0144).len := by decide
theorem witness_HeaderAccessorsReadTheirOffsets : 0x014D < (Cartridge.blank 0x014E).len ∧
    (Memory.read [(0x148, 0x08)] 0x0148).toNat = 8 ∧ 8 < (Memory.read [(0x148, 0x09)] 0x0148).toNat := by decide
theorem witness_AssembledJnzReachesItsTarget :
    (((0x0182#16) - (0x0100#16 + 2#16)).toInt = 128) ∧ (((0x0181#16) - (0x0100#16 + 2#16)).toInt = 127) ∧
    (((0x0082#16) - (0x0100#16 + 2#16)).toInt = -128) ∧ (((0x0081#16) - (0x0100#16 + 2#16)).toInt = -129) := by decide

end Sys2Proof.Tests
end

/-! PROOFS. The flag register, the zero flag's writers and its reader, and the register pairs (10_state.md R18 to R25). -/

namespace Sys2Proof.Machine

/-! ### Single bits of F -/

theorem getFlagBit_setFlagBit (f : Byte) (p q : Nat) (b : Bool) (hp : p < 8) :
    getFlagBit (setFlagBit f p b) q = if q = p then b else getFlagBit f q := by
  simp only [getFlagBit_eq_getLsbD, setFlagBit_getLsbD f p q b hp]

theorem setFlagBit_comm (f : Byte) {p q : Nat} (b b' : Bool) (hp : p < 8) (hq : q < 8) (hne : p ≠ q) :
    setFlagBit (setFlagBit f p b) q b' = setFlagBit (setFlagBit f q b') p b := by
  refine BitVec.eq_of_getLsbD_eq fun k _ => ?_
  simp only [setFlagBit_getLsbD _ _ _ _ hp, setFlagBit_getLsbD _ _ _ _ hq]
  by_cases hkp : k = p
  · simp [hkp, hne]
  · simp [hkp]

theorem getFlagBit_eq_decide_div_mod (f : Byte) (p : Nat) : getFlagBit f p = decide (f.toNat / 2 ^ p % 2 = 1) := by
  rw [getFlagBit_eq_getLsbD, ← BitVec.testBit_toNat, Nat.testBit_eq_decide_div_mod_eq]

/-- Settles O34: each bit of F after a write is known (`setFlagBit_getLsbD`), and the rest follows bit by bit. -/
theorem setFlagWritesOneBit : Obligations.SetFlagWritesOneBit :=
  ⟨fun f p q b hp _ => getFlagBit_setFlagBit f p q b hp,
    fun f _ _ b b' hp hq hne => setFlagBit_comm f b b' hp hq hne,
    fun f p _ => getFlagBit_eq_decide_div_mod f p,
    fun _ => ⟨rfl, rfl, rfl, rfl⟩⟩

/-! ### Register pairs -/

theorem loByte_toNat (v : Addr) : (loByte v).toNat = v.toNat % 256 := by
  simp [loByte]

theorem hiByte_toNat (v : Addr) : (hiByte v).toNat = v.toNat / 256 := by
  have hv := imm16_toNat (loByte v) (hiByte v)
  have hlo := loByte_toNat v
  rw [imm16_lo_hi] at hv
  omega

theorem getPair_eq_imm16 (s : State) (hi lo : Reg) : s.getPair hi lo = imm16 (s.getReg lo) (s.getReg hi) := rfl

theorem getPair_toNat (s : State) (hi lo : Reg) :
    (s.getPair hi lo).toNat = (s.getReg hi).toNat * 256 + (s.getReg lo).toNat := by
  rw [getPair_eq_imm16, imm16_toNat]
  omega

theorem getPair_setPair (s : State) {hi lo : Reg} (v : Addr) (h : hi ≠ lo) : (s.setPair hi lo v).getPair hi lo = v := by
  rw [getPair_eq_imm16, setPair_getReg_lo, setPair_getReg_hi s hi lo v h, imm16_lo_hi]

/-- Settles O35: a pair is the word assembled from its two registers, and a write puts that word's halves there. -/
theorem pairReadsAsWritten : Obligations.PairReadsAsWritten := by
  intro s hi lo v hne
  refine ⟨getPair_toNat s hi lo, ?_, ?_, getPair_setPair s v hne,
    fun r hr hr' => setPair_getReg_other s r hi lo v hr hr'⟩
  · rw [setPair_getReg_hi s hi lo v hne, hiByte_toNat]
  · rw [setPair_getReg_lo, loByte_toNat]

/-! ### The zero flag -/

/-- The three instructions that write F (R20 to R23); every other one leaves the whole register alone. -/
def writesF : Instr → Bool
  | .xorA | .decB | .decD => true
  | _ => false

theorem execLdHLmA_keeps_f {s t : State} (h : execLdHLmA s = .next t) : t.f = s.f := by
  rcases execLdHLmA_cases s with ⟨bus', _, hs⟩ | ⟨e, _, hs⟩
  · cases hs.symm.trans h
    rfl
  · cases hs.symm.trans h
    rfl

theorem execJnz_of_clear {r8 : Byte} {s : State} (h : s.flag .z = false) :
    execJnz r8 s = .next (s.setPc (relativeTarget s.pc r8)) := by
  simp [execJnz, h]

theorem execJnz_of_set {r8 : Byte} {s : State} (h : s.flag .z = true) :
    execJnz r8 s = .next (s.setPc (s.pc + 2#16)) := by
  simp [execJnz, h]

theorem execJnz_keeps_f {r8 : Byte} {s t : State} (h : execJnz r8 s = .next t) : t.f = s.f := by
  cases hz : s.flag .z
  · cases (execJnz_of_clear hz).symm.trans h
    rfl
  · cases (execJnz_of_set hz).symm.trans h
    rfl

theorem exec_keeps_f {i : Instr} {s t : State} (h : exec i s = .next t) (hi : writesF i = false) : t.f = s.f := by
  cases i with
  | xorA => cases hi
  | decB => cases hi
  | decD => cases hi
  | ldHLmA => exact execLdHLmA_keeps_f h
  | jnz r8 => exact execJnz_keeps_f h
  | _ => cases h; rfl

theorem exec_keeps_flag {i : Instr} {s t : State} (h : exec i s = .next t) (hi : writesF i = false) (x : Flag) :
    t.flag x = s.flag x :=
  congrArg (getFlagBit · x.bit) (exec_keeps_f h hi)

theorem decRegister_getReg_same (s : State) {r : Reg} (h : r ≠ .f) : (decRegister r s).getReg r = s.getReg r - 1#8 := by
  simp [decRegister, setDecFlags_getReg_other _ _ _ _ h]

theorem decRegister_flag_z (s : State) {r : Reg} (h : r ≠ .f) :
    (decRegister r s).flag .z = decide ((decRegister r s).getReg r = 0x00#8) := by
  rw [decRegister_getReg_same s h]
  simp [decRegister, State.setDecFlags, decZero, Bool.beq_eq_decide_eq]

theorem clearFlags_flag (s : State) (x : Flag) : s.clearFlags.flag x = false := by
  cases x <;> simp [State.clearFlags]

theorem resetAt_flag (bus : Bus) (resetPc : Addr) (x : Flag) : (State.resetAt bus resetPc).flag x = false := by
  have hf : (State.resetAt bus resetPc).getReg .f = 0x00#8 := rfl
  simp [State.flag, hf, getFlagBit_eq_getLsbD]

/-- Settles O31: three instructions write F, each with its own value of Z; all others keep F, and with it Z. -/
theorem zeroFlagWritersAndReader : Obligations.ZeroFlagWritersAndReader := by
  refine ⟨fun i s t h => ?_, fun _ _ hz => execJnz_of_clear hz, fun _ _ hz => execJnz_of_set hz,
    fun bus resetPc => resetAt_flag bus resetPc .z⟩
  cases i with
  | xorA =>
    cases h
    exact clearFlags_flag _ .z
  | decB =>
    cases h
    exact decRegister_flag_z s (by decide)
  | decD =>
    cases h
    exact decRegister_flag_z s (by decide)
  | _ => exact exec_keeps_flag h rfl .z

end Sys2Proof.Machine

/-! PROOFS. The reference bus's read and the header checksum (20_memory.md R36 and R56). -/

namespace Sys2Proof.Machine

/-! ### The reference bus -/

theorem Bus.read_reference {bus : Bus} (h : bus.isReference) (addr : Addr) :
    bus.read addr = if addr.toNat < Config.cartWindowEnd then bus.cart.read addr
      else .error { kind := .unmapped, addr := addr } := by
  simp only [Bus.read, Bus.accessAt_reference h]

/-- Settles O36: the two sides of the one comparison that a read without regions makes. -/
theorem referenceBusReadsTheCartridgeWindow : Obligations.ReferenceBusReadsTheCartridgeWindow := by
  intro cart addr
  have hread := Bus.read_reference (bus := Bus.reference cart) rfl addr
  refine ⟨fun hlow => ?_, fun hhigh => ?_⟩
  · rw [hread, cartWindowEnd_eq, if_pos hlow]
    rfl
  · rw [hread, cartWindowEnd_eq, if_neg (Nat.not_lt.mpr hhigh)]

/-! ### Reading the header -/

theorem headerByte_of_lt {c : Cartridge} {offset : Nat} (h : offset < c.len) :
    headerByte c offset = .ok (Memory.read c.content offset) :=
  if_pos h

theorem headerBytes_of_le {c : Cartridge} {offset count : Nat} (h : offset + count ≤ c.len) :
    headerBytes c offset count = .ok ((List.range count).map fun k => Memory.read c.content (offset + k)) := by
  induction count generalizing offset with
  | zero => rfl
  | succ count ih =>
    have hfirst : headerByte c offset = .ok (Memory.read c.content offset) := headerByte_of_lt (by omega)
    have hrest := ih (offset := offset + 1) (by omega)
    simp [headerBytes, hfirst, hrest, List.range_succ_eq_map, Function.comp_def, Nat.add_assoc, Nat.add_comm 1]

/-! ### The checksum -/

/-- Subtracting each byte plus 1 and then adding them all back, modulo 256, gives the accumulator's first value. -/
theorem checksumFold_add_sum (bs : List Byte) (acc : Byte) :
    ((bs.foldl (fun acc b => acc - (b + 1#8)) acc).toNat + (bs.map fun b => b.toNat + 1).sum) % 256 = acc.toNat := by
  induction bs generalizing acc with
  | nil => exact Nat.mod_eq_of_lt acc.isLt
  | cons b bs ih =>
    have hrest := ih (acc - (b + 1#8))
    rw [List.foldl_cons, List.map_cons, List.sum_cons]
    bv_omega

theorem headerChecksum_add_sum (bs : List Byte) :
    ((headerChecksum bs).toNat + (bs.map fun b => b.toNat + 1).sum) % 256 = 0 :=
  checksumFold_add_sum bs 0x00#8

theorem headerChecksum_eq_iff (bs : List Byte) (expected : Byte) :
    headerChecksum bs = expected ↔ ((bs.map fun b => b.toNat + 1).sum + expected.toNat) % 256 = 0 := by
  have hsum := headerChecksum_add_sum bs
  have hlt := (headerChecksum bs).isLt
  have hlt' := expected.isLt
  rw [← BitVec.toNat_inj]
  omega

/-- Settles O48: the accumulator is minus the sum modulo 256, so it equals the byte at 0x014D exactly when the whole sum
is 0 modulo 256. -/
theorem headerChecksumIsModulo256 : Obligations.HeaderChecksumIsModulo256 := by
  intro c hlen
  have hbytes := headerBytes_of_le (c := c) (offset := 0x0134) (count := 25) (by omega)
  have hexpected := headerByte_of_lt hlen
  simp only [validateHeaderChecksum, hbytes, hexpected, Bool.beq_eq_decide_eq, headerChecksum_eq_iff, List.map_map,
    Function.comp_def]

end Sys2Proof.Machine

/-! PROOFS. The opcode map and the operand bytes of the three formats (30_encoding.md R60 to R65 and R74). -/

namespace Sys2Proof.Machine

/-! ### The dispatcher -/

/-- Looking an opcode up in a map, one row at a time: the row's answer, or that of the rows after it. -/
theorem find?_opcode_cons (op : Byte) (row : Byte × Descriptor) (rows : List (Byte × Descriptor)) :
    ((row :: rows).find? (fun row => row.1 == op)).map (fun row => row.2) =
      if op = row.1 then some row.2 else (rows.find? (fun row => row.1 == op)).map (fun row => row.2) := by
  by_cases h : op = row.1
  · simp [h]
  · simp [h, Ne.symm h]

/-- Settles O3: the search through the map is one comparison per row, and none is left to answer after the last row. -/
theorem dispatcherIsTheOpcodeMap : Obligations.DispatcherIsTheOpcodeMap := by
  intro op
  simp only [dispatchOpcode, opcodeTable, find?_opcode_cons, List.find?_nil, Option.map_none]

/-! ### Decoding by format -/

section
variable {op : Byte}

theorem decode_of_f1 {i : Instr} (h : dispatchOpcode op = some (.f1 i)) (rest : List Byte) :
    decode (op :: rest) = .ok (i, rest) := by
  simp only [decode, h]

theorem decode_of_f2 {mk : Byte → Instr} (h : dispatchOpcode op = some (.f2 mk)) (b1 : Byte) (rest : List Byte) :
    decode (op :: b1 :: rest) = .ok (mk b1, rest) := by
  simp only [decode, h]

theorem decode_of_f3 {mk : Addr → Instr} (h : dispatchOpcode op = some (.f3 mk)) (b1 b2 : Byte) (rest : List Byte) :
    decode (op :: b1 :: b2 :: rest) = .ok (mk (imm16 b1 b2), rest) := by
  simp only [decode, h]

end

/-- The assembled word is the only word with the value R63 gives it. -/
theorem eq_imm16_of_toNat {b1 b2 : Byte} {w : Addr} (h : w.toNat = b1.toNat + 256 * b2.toNat) : w = imm16 b1 b2 :=
  BitVec.eq_of_toNat_eq (h.trans (imm16_toNat b1 b2).symm)

theorem signedOffset_toInt (r8 : Byte) : (signedOffset r8).toInt = r8.toInt :=
  BitVec.toInt_signExtend_of_le (by decide)

/-- Settles O4: each opcode's format decides its operand bytes, and two of them make the word of their value. -/
theorem formatsTakeTheirOperandBytes : Obligations.FormatsTakeTheirOperandBytes := by
  intro b1 b2 rest w hw
  obtain rfl := eq_imm16_of_toNat hw
  exact ⟨decode_of_f1 rfl rest, decode_of_f1 rfl rest, decode_of_f1 rfl rest, decode_of_f1 rfl rest,
    decode_of_f1 rfl rest, decode_of_f2 rfl b1 rest, decode_of_f2 rfl b1 rest, decode_of_f2 rfl b1 rest,
    decode_of_f2 rfl b1 rest, signedOffset_toInt b1, decode_of_f3 rfl b1 b2 rest, decode_of_f3 rfl b1 b2 rest⟩

end Sys2Proof.Machine

/-! PROOFS. The decoder and the encoder are inverse (30_encoding.md R59 to R65). -/

namespace Sys2Proof.Machine

/-! ### From an instruction to its bytes and back -/

theorem decode_of_f3_halves {op : Byte} {mk : Addr → Instr} (h : dispatchOpcode op = some (.f3 mk)) (w : Addr)
    (rest : List Byte) : decode (op :: loByte w :: hiByte w :: rest) = .ok (mk w, rest) := by
  rw [decode_of_f3 h, imm16_lo_hi]

theorem decode_encode (i : Instr) (rest : List Byte) : decode (encode i ++ rest) = .ok (i, rest) := by
  cases i with
  | nop => exact decode_of_f1 rfl rest
  | decB => exact decode_of_f1 rfl rest
  | decD => exact decode_of_f1 rfl rest
  | ldHLmA => exact decode_of_f1 rfl rest
  | xorA => exact decode_of_f1 rfl rest
  | ldB d8 => exact decode_of_f2 rfl d8 rest
  | ldC d8 => exact decode_of_f2 rfl d8 rest
  | ldA d8 => exact decode_of_f2 rfl d8 rest
  | jnz r8 => exact decode_of_f2 rfl r8 rest
  | ldBC d16 => exact decode_of_f3_halves rfl d16 rest
  | jp a16 => exact decode_of_f3_halves rfl a16 rest

/-- Settles O1: each opcode selects the format its instruction is encoded in, and a word is the one its halves make. -/
theorem encodedInstructionDecodesBack : Obligations.EncodedInstructionDecodesBack :=
  decode_encode

/-! ### From bytes to their instruction and back -/

section
variable {op : Byte}

theorem encode_of_f1 {i : Instr} (h : dispatchOpcode op = some (.f1 i)) : encode i = [op] := by
  have hmem := dispatchOpcode_mem h
  simp only [opcodeTable, List.mem_cons, Prod.mk.injEq, Descriptor.f1.injEq, reduceCtorEq, and_false, List.not_mem_nil,
    false_or, or_false] at hmem
  rcases hmem with ⟨rfl, rfl⟩ | ⟨rfl, rfl⟩ | ⟨rfl, rfl⟩ | ⟨rfl, rfl⟩ | ⟨rfl, rfl⟩ <;> rfl

theorem encode_of_f2 {mk : Byte → Instr} (h : dispatchOpcode op = some (.f2 mk)) (b1 : Byte) :
    encode (mk b1) = [op, b1] := by
  have hmem := dispatchOpcode_mem h
  simp only [opcodeTable, List.mem_cons, Prod.mk.injEq, Descriptor.f2.injEq, reduceCtorEq, and_false, List.not_mem_nil,
    false_or, or_false] at hmem
  rcases hmem with ⟨rfl, rfl⟩ | ⟨rfl, rfl⟩ | ⟨rfl, rfl⟩ | ⟨rfl, rfl⟩ <;> rfl

theorem encode_of_f3 {mk : Addr → Instr} (h : dispatchOpcode op = some (.f3 mk)) (w : Addr) :
    encode (mk w) = [op, loByte w, hiByte w] := by
  have hmem := dispatchOpcode_mem h
  simp only [opcodeTable, List.mem_cons, Prod.mk.injEq, Descriptor.f3.injEq, reduceCtorEq, and_false, List.not_mem_nil,
    false_or, or_false] at hmem
  rcases hmem with ⟨rfl, rfl⟩ | ⟨rfl, rfl⟩ <;> rfl

end

/-- Everything a list of bytes that decodes can be: an opcode of the map and the operand bytes of its format. -/
theorem decode_ok {bs rest : List Byte} {i : Instr} (h : decode bs = .ok (i, rest)) :
    (∃ op, dispatchOpcode op = some (.f1 i) ∧ bs = op :: rest) ∨
    (∃ op mk b1, dispatchOpcode op = some (.f2 mk) ∧ i = mk b1 ∧ bs = op :: b1 :: rest) ∨
    (∃ op mk b1 b2, dispatchOpcode op = some (.f3 mk) ∧ i = mk (imm16 b1 b2) ∧ bs = op :: b1 :: b2 :: rest) := by
  unfold decode at h
  split at h
  · cases h
  · split at h
    · cases h
    · cases h
      exact .inl ⟨_, ‹_›, rfl⟩
    · split at h <;> cases h
      exact .inr (.inl ⟨_, _, _, ‹_›, rfl, rfl⟩)
    · split at h <;> cases h
      exact .inr (.inr ⟨_, _, _, _, ‹_›, rfl, rfl⟩)

/-- Settles O2: in each format the instruction's own bytes are the opcode and the operand bytes that were read. -/
theorem decodedBytesAreTheEncoding : Obligations.DecodedBytesAreTheEncoding := by
  intro bs i rest h
  rcases decode_ok h with ⟨op, hop, rfl⟩ | ⟨op, mk, b1, hop, rfl, rfl⟩ | ⟨op, mk, b1, b2, hop, rfl, rfl⟩
  · rw [encode_of_f1 hop, List.singleton_append]
  · rw [encode_of_f2 hop, List.cons_append, List.singleton_append]
  · rw [encode_of_f3 hop, loByte_imm16, hiByte_imm16]
    rfl

/-- Settles O5: each word has the shape of its opcode's format; 0xCB is in no row of the map. -/
theorem writtenOutWordsDecode : Obligations.WrittenOutWordsDecode :=
  ⟨decode_of_f3 rfl 0x50 0x01 [], decode_of_f2 rfl 0xFE [0x00], decode_of_f3 rfl 0x34 0x12 [], decode_of_f1 rfl [],
    decode_of_f1 rfl [], rfl⟩

end Sys2Proof.Machine

/-! PROOFS. The fetch by format and the Step's two answers (30_encoding.md R66 to R75, 60_exceptions.md R92 to R97). -/

namespace Sys2Proof.Machine

/-! ### The fetch, by the format of the opcode read -/

section
variable {s : State} {op b1 b2 : Byte} {mk1 : Byte → Instr} {mk2 : Addr → Instr} {e : MemFault}

theorem fetchInstr_opcode_error (he : s.bus.read s.pc = .error e) :
    fetchInstr s = .error (fetchFaultInfo s.pc none .fetchOpcode e) := by
  simp only [fetchInstr, fetchByte_error he]

theorem fetchInstr_unlisted (hop : s.bus.read s.pc = .ok op) (hd : dispatchOpcode op = none) :
    fetchInstr s = .error (unimplementedOpcodeInfo s.pc op) := by
  simp only [fetchInstr, fetchByte_ok hop, hd]

theorem fetchInstr_f1 {i : Instr} (hop : s.bus.read s.pc = .ok op) (hd : dispatchOpcode op = some (.f1 i)) :
    fetchInstr s = .ok i := by
  simp only [fetchInstr, fetchByte_ok hop, hd]

theorem fetchInstr_f2 (hop : s.bus.read s.pc = .ok op) (hd : dispatchOpcode op = some (.f2 mk1))
    (h1 : s.bus.read (s.pc + 1#16) = .ok b1) : fetchInstr s = .ok (mk1 b1) := by
  simp only [fetchInstr, fetchByte_ok hop, hd, fetchByte_ok h1]

theorem fetchInstr_f2_error (hop : s.bus.read s.pc = .ok op) (hd : dispatchOpcode op = some (.f2 mk1))
    (he : s.bus.read (s.pc + 1#16) = .error e) :
    fetchInstr s = .error (fetchFaultInfo s.pc (some op) .fetchOperand1 e) := by
  simp only [fetchInstr, fetchByte_ok hop, hd, fetchByte_error he]

theorem fetchInstr_f3 (hop : s.bus.read s.pc = .ok op) (hd : dispatchOpcode op = some (.f3 mk2))
    (h1 : s.bus.read (s.pc + 1#16) = .ok b1) (h2 : s.bus.read (s.pc + 2#16) = .ok b2) :
    fetchInstr s = .ok (mk2 (imm16 b1 b2)) := by
  simp only [fetchInstr, fetchByte_ok hop, hd, fetchByte_ok h1, fetchByte_ok h2]

theorem fetchInstr_f3_error1 (hop : s.bus.read s.pc = .ok op) (hd : dispatchOpcode op = some (.f3 mk2))
    (he : s.bus.read (s.pc + 1#16) = .error e) :
    fetchInstr s = .error (fetchFaultInfo s.pc (some op) .fetchOperand1 e) := by
  simp only [fetchInstr, fetchByte_ok hop, hd, fetchByte_error he]

theorem fetchInstr_f3_error2 (hop : s.bus.read s.pc = .ok op) (hd : dispatchOpcode op = some (.f3 mk2))
    (h1 : s.bus.read (s.pc + 1#16) = .ok b1) (he : s.bus.read (s.pc + 2#16) = .error e) :
    fetchInstr s = .error (fetchFaultInfo s.pc (some op) .fetchOperand2 e) := by
  simp only [fetchInstr, fetchByte_ok hop, hd, fetchByte_ok h1, fetchByte_error he]

end

/-- A fetch from addresses that answer bytes which decode is that decoding, whatever bytes follow them. -/
theorem fetchInstr_of_decode {s : State} {bs rest : List Byte} {i : Instr}
    (hread : ∀ (k : Nat) (hk : k < bs.length), s.bus.read (s.pc + BitVec.ofNat 16 k) = .ok bs[k])
    (hdec : decode bs = .ok (i, rest)) : fetchInstr s = .ok i := by
  have hpc : s.pc + BitVec.ofNat 16 0 = s.pc := BitVec.add_zero s.pc
  rcases decode_ok hdec with ⟨op, hd, rfl⟩ | ⟨op, mk, b1, hd, rfl, rfl⟩ | ⟨op, mk, b1, b2, hd, rfl, rfl⟩
  · exact fetchInstr_f1 (hpc ▸ hread 0 (by simp)) hd
  · exact fetchInstr_f2 (hpc ▸ hread 0 (by simp)) hd (hread 1 (by simp))
  · exact fetchInstr_f3 (hpc ▸ hread 0 (by simp)) hd (hread 1 (by simp)) (hread 2 (by simp))

/-! ### The Step of a ready CORE -/

theorem step_of_fetch {s : State} {i : Instr} (hs : s.ready) (h : fetchInstr s = .ok i) : step s = exec i s := by
  simp only [step, hs, h]

theorem step_of_fetch_error {s : State} {info : FaultInfo} (hs : s.ready) (h : fetchInstr s = .error info) :
    step s = .next { s with fault := some info } := by
  simp only [step, hs, h, raiseFault]

/-- The record of a failed fetch names the address that was read. -/
theorem stepRaisesFetchFault_of_fetch {s : State} {op : Option Byte} {access : Access} {addr : Addr} {e : MemFault}
    (hs : s.ready) (he : s.bus.read addr = .error e)
    (h : fetchInstr s = .error (fetchFaultInfo s.pc op access e)) : StepRaisesFetchFault s op access addr e := by
  rw [StepRaisesFetchFault, step_of_fetch_error hs h, fetchFaultInfo, Bus.read_error_addr he]

theorem stepExecutesF1_of_dispatch {op : Byte} {i : Instr} (hd : dispatchOpcode op = some (.f1 i)) :
    StepExecutesF1 op i := by
  intro s hs
  exact ⟨fun e he => stepRaisesFetchFault_of_fetch hs he (fetchInstr_opcode_error he),
    fun hop => step_of_fetch hs (fetchInstr_f1 hop hd)⟩

theorem stepExecutesF2_of_dispatch {op : Byte} {mk : Byte → Instr} (hd : dispatchOpcode op = some (.f2 mk)) :
    StepExecutesF2 op mk := by
  intro s hs
  refine ⟨fun e he => stepRaisesFetchFault_of_fetch hs he (fetchInstr_opcode_error he), fun hop => ⟨fun e he => ?_, ?_⟩⟩
  · exact stepRaisesFetchFault_of_fetch hs he (fetchInstr_f2_error hop hd he)
  · exact fun b1 h1 => step_of_fetch hs (fetchInstr_f2 hop hd h1)

theorem stepExecutesF3_of_dispatch {op : Byte} {mk : Addr → Instr} (hd : dispatchOpcode op = some (.f3 mk)) :
    StepExecutesF3 op mk := by
  intro s hs
  refine ⟨fun e he => stepRaisesFetchFault_of_fetch hs he (fetchInstr_opcode_error he),
    fun hop => ⟨fun e he => ?_, fun b1 h1 => ⟨fun e he => ?_, fun b2 h2 => ?_⟩⟩⟩
  · exact stepRaisesFetchFault_of_fetch hs he (fetchInstr_f3_error1 hop hd he)
  · exact stepRaisesFetchFault_of_fetch hs he (fetchInstr_f3_error2 hop hd h1 he)
  · exact step_of_fetch hs (fetchInstr_f3 hop hd h1 h2)

/-- Settles O6: the fetch reads the bytes one after another, and the Step adds nothing around `exec`. -/
theorem stepRunsTheDecodedBytes : Obligations.StepRunsTheDecodedBytes :=
  fun _ _ _ hs hread hdec _ => step_of_fetch hs (fetchInstr_of_decode hread hdec)

/-- No opcode outside the map's list is dispatched. -/
theorem dispatchOpcode_unlisted {op : Byte}
    (h : op ∉ [0x00#8, 0x05#8, 0x06#8, 0x0D#8, 0x0E#8, 0x20#8, 0x21#8, 0x32#8, 0x3E#8, 0xAF#8, 0xC3#8]) :
    dispatchOpcode op = none := by
  cases hd : dispatchOpcode op with
  | none => rfl
  | some d => exact absurd (List.mem_map_of_mem (f := Prod.fst) (dispatchOpcode_mem hd)) h

/-- Settles O7: the dispatcher answers none, and the fetch reads no operand byte. -/
theorem unlistedOpcodeRaisesUnimplementedOpcode : Obligations.UnlistedOpcodeRaisesUnimplementedOpcode :=
  fun _ _ hs hop hlist => step_of_fetch_error hs (fetchInstr_unlisted hop (dispatchOpcode_unlisted hlist))

/-! ### The Step of a latched CORE -/

theorem step_of_latched {s : State} {info : FaultInfo} (h : s.fault = some info) : step s = .fault (.latched info) := by
  simp only [step, h]

/-- Settles O10: the latch is looked at before anything else. -/
theorem latchedCoreAnswersItsFault : Obligations.LatchedCoreAnswersItsFault := by
  intro s info h
  have hstep := step_of_latched h
  exact ⟨hstep, by simp only [stepResponse, hstep]⟩

end Sys2Proof.Machine

/-! PROOFS. The result of each instruction, as one equation for the whole next state (40_control.md, 41_alu.md, 42_loads.md). -/

namespace Sys2Proof.Machine

/-! ### The flag register after DEC and XOR A -/

/-- F after a decrement from `old` to `res`: Z, N and H written, C and F[3:0] kept (R80). -/
def decFlagByte (old res f : Byte) : Byte :=
  (if res = 0#8 then 0x80#8 else 0#8) ||| 0x40#8 ||| (if old &&& 0x0F#8 = 0#8 then 0x20#8 else 0#8) ||| (f &&& 0x1F#8)

theorem decHalfCarry_eq_decide_mod (old : Byte) : decHalfCarry old = decide (old.toNat % 16 = 0) := by
  simp [decHalfCarry, Bool.beq_eq_decide_eq, ← BitVec.toNat_inj]

theorem decHalfCarry_eq_decide (old : Byte) : decHalfCarry old = decide (old &&& 0x0F#8 = 0#8) := by
  have hmask : old.toNat &&& 15 = old.toNat % 16 := Nat.and_two_pow_sub_one_eq_mod old.toNat 4
  simp [decHalfCarry_eq_decide_mod, ← BitVec.toNat_inj, hmask]

theorem decFlagByte_getLsbD (old res f : Byte) (k : Nat) :
    (decFlagByte old res f).getLsbD k =
      if k = 5 then decHalfCarry old else if k = 6 then true else if k = 7 then decZero res else f.getLsbD k := by
  rw [decHalfCarry_eq_decide, decZero, Bool.beq_eq_decide_eq]
  by_cases hk : k < 8
  · unfold decFlagByte
    split <;> split <;> interval_cases k <;> simp [*]
  · have h : k ≠ 5 ∧ k ≠ 6 ∧ k ≠ 7 := by omega
    simp [h, BitVec.getLsbD_of_ge, Nat.not_lt.mp hk]

theorem setDecFlags_eq (s : State) (old res : Byte) : s.setDecFlags old res = { s with f := decFlagByte old res s.f } := by
  have hf : (s.setDecFlags old res).getReg .f = decFlagByte old res s.f :=
    BitVec.eq_of_getLsbD_eq fun k _ => by rw [setDecFlags_getLsbD, decFlagByte_getLsbD]; rfl
  rw [← hf]
  rfl

theorem lowNibble_getLsbD (f : Byte) (k : Nat) :
    (f &&& 0x0F#8).getLsbD k = (if 4 ≤ k ∧ k < 8 then false else f.getLsbD k) := by
  by_cases hk : k < 8
  · interval_cases k <;> simp
  · simp [hk, BitVec.getLsbD_of_ge, Nat.not_lt.mp hk]

theorem clearFlags_eq (s : State) : s.clearFlags = { s with f := s.f &&& 0x0F#8 } := by
  have hf : s.clearFlags.getReg .f = s.f &&& 0x0F#8 :=
    BitVec.eq_of_getLsbD_eq fun k _ => by rw [clearFlags_getLsbD, lowNibble_getLsbD]; rfl
  rw [← hf]
  rfl

/-! ### Control -/

/-- Settles O14: `exec` of NOP is the sequential advance alone. -/
theorem nopOnlyAdvancesPc : Obligations.NopOnlyAdvancesPc :=
  ⟨fun _ => rfl, stepExecutesF1_of_dispatch rfl⟩

/-- Settles O15: `exec` of JP is the write of PC alone. -/
theorem jpSetsPcToTheTarget : Obligations.JpSetsPcToTheTarget :=
  ⟨fun _ _ => rfl, stepExecutesF3_of_dispatch rfl⟩

theorem flag_z_eq (s : State) : s.flag .z = s.f.getLsbD 7 :=
  getFlagBit_eq_getLsbD s.f 7

theorem exec_jnz (r8 : Byte) (s : State) :
    exec (.jnz r8) s = .next { s with pc := if s.f.getLsbD 7 then s.pc + 2#16 else s.pc + 2#16 + r8.signExtend 16 } := by
  rw [← flag_z_eq]
  cases hz : s.flag .z
  · exact execJnz_of_clear hz
  · exact execJnz_of_set hz

/-- Settles O16: the two branches of JNZ differ in the PC they write and in nothing else. -/
theorem jnzBranchesWhenZIsClear : Obligations.JnzBranchesWhenZIsClear :=
  ⟨exec_jnz, stepExecutesF2_of_dispatch rfl⟩

theorem signedOffset_toNat (r8 : Byte) : ((signedOffset r8).toNat : Int) = r8.toInt % 65536 := by
  have h := BitVec.toNat_ofInt (n := 16) (r8.toInt)
  have h0 : 0 ≤ r8.toInt % 65536 := Int.emod_nonneg _ (by decide)
  rw [signedOffset, BitVec.signExtend, h]
  exact Int.toNat_of_nonneg h0

/-- Settles O17: both sums are taken modulo 65536, and the offset's word is its value modulo 65536. -/
theorem branchTargetAddsTheSignedOffset : Obligations.BranchTargetAddsTheSignedOffset := by
  intro pc0 r8
  have hlow : -128 ≤ r8.toInt := BitVec.le_toInt r8
  have hhigh : r8.toInt < 128 := BitVec.toInt_lt
  have hoff := signedOffset_toNat r8
  refine ⟨hlow, by omega, ?_⟩
  have hsum : (relativeTarget pc0 r8).toNat = (pc0.toNat + 2 + (signedOffset r8).toNat) % 65536 := by
    simp [relativeTarget, BitVec.toNat_add]
  omega

/-! ### ALU -/

theorem exec_xorA (s : State) : exec .xorA s = .next { s with a := 0x00, f := s.f &&& 0x0F#8, pc := s.pc + 1#16 } := by
  show Host.Outcome.next ((s.setReg .a (s.a ^^^ s.a)).clearFlags.advance 1) = _
  rw [BitVec.xor_self, clearFlags_eq]
  rfl

/-- Settles O18: A xor A is 0, and the four flags cleared are the mask of the low nibble. -/
theorem xorAClearsAAndAllFlags : Obligations.XorAClearsAAndAllFlags :=
  ⟨exec_xorA, stepExecutesF1_of_dispatch rfl⟩

theorem exec_decB (s : State) :
    exec .decB s = .next { s with b := s.b - 1#8, f := decFlagByte s.b (s.b - 1#8) s.f, pc := s.pc + 1#16 } := by
  show Host.Outcome.next (((s.setReg .b (s.b - 1#8)).setDecFlags s.b (s.b - 1#8)).advance 1) = _
  rw [setDecFlags_eq]
  rfl

theorem exec_decD (s : State) :
    exec .decD s = .next { s with d := s.d - 1#8, f := decFlagByte s.d (s.d - 1#8) s.f, pc := s.pc + 1#16 } := by
  show Host.Outcome.next (((s.setReg .d (s.d - 1#8)).setDecFlags s.d (s.d - 1#8)).advance 1) = _
  rw [setDecFlags_eq]
  rfl

/-- Settles O19: the decrement of B with `decFlagByte` in F. -/
theorem decBDecrementsBAndSetsFlags : Obligations.DecBDecrementsBAndSetsFlags :=
  ⟨exec_decB, stepExecutesF1_of_dispatch rfl⟩

/-- Settles O20: the decrement of D with `decFlagByte` in F. -/
theorem decDDecrementsDAndSetsFlags : Obligations.DecDDecrementsDAndSetsFlags :=
  ⟨exec_decD, stepExecutesF1_of_dispatch rfl⟩

/-! ### Loads -/

/-- Settles O21: the write of B and the advance. -/
theorem ldBLoadsTheByte : Obligations.LdBLoadsTheByte :=
  ⟨fun _ _ => rfl, stepExecutesF2_of_dispatch rfl⟩

/-- Settles O22: the write of C and the advance. -/
theorem ldCLoadsTheByte : Obligations.LdCLoadsTheByte :=
  ⟨fun _ _ => rfl, stepExecutesF2_of_dispatch rfl⟩

/-- Settles O23: the write of A and the advance. -/
theorem ldALoadsTheByte : Obligations.LdALoadsTheByte :=
  ⟨fun _ _ => rfl, stepExecutesF2_of_dispatch rfl⟩

theorem exec_ldBC (d16 : Addr) (s : State) :
    exec (.ldBC d16) s = .next { s with b := hiByte d16, c := loByte d16, pc := s.pc + 3#16 } := rfl

/-- Settles O24: the word's two halves are the bytes it was assembled from. -/
theorem ldBCLoadsThePair : Obligations.LdBCLoadsThePair := by
  refine ⟨fun b1 b2 s => ?_, stepExecutesF3_of_dispatch rfl⟩
  rw [exec_ldBC, ← imm16, hiByte_imm16, loByte_imm16]

/-! ### The store -/

/-- After an accepted store: the Bus that the write returned, and HL less 1. -/
def afterStore (s : State) (bus' : Bus) : State :=
  { s with bus := bus', h := hiByte (s.hlAddr - 1#16), l := loByte (s.hlAddr - 1#16), pc := s.pc + 1#16 }

/-- After a store that fails: the port's record in the latch, at the address of the store. -/
def afterRefusedStore (s : State) (e : MemFault) : State :=
  { s with
    fault := some { kind := e.kind.toFaultKind, pc := s.pc, opcode := some 0x32, addr := some s.hlAddr,
                    access := some .store, value := some s.a } }

theorem exec_ldHLmA_of_ok {s : State} {bus' : Bus} (h : s.bus.write s.hlAddr s.a = .ok bus') :
    exec .ldHLmA s = .next (afterStore s bus') := by
  rcases execLdHLmA_cases s with ⟨bus'', hw, hs⟩ | ⟨e, hw, _⟩
  · cases h.symm.trans hw
    exact hs
  · cases h.symm.trans hw

theorem exec_ldHLmA_of_error {s : State} {e : MemFault} (h : s.bus.write s.hlAddr s.a = .error e) :
    exec .ldHLmA s = .next (afterRefusedStore s e) := by
  rcases execLdHLmA_cases s with ⟨bus'', hw, _⟩ | ⟨e', hw, hs⟩
  · cases h.symm.trans hw
  · cases h.symm.trans hw
    rw [afterRefusedStore, ← Bus.write_error_addr h]
    exact hs

/-- Settles O25: HL - 1 is the one word with the value modulo 65536 that the statement gives. -/
theorem acceptedStoreThenHLDecrements : Obligations.AcceptedStoreThenHLDecrements := by
  refine ⟨fun s bus' hl' hw hhl => ?_, stepExecutesF1_of_dispatch rfl⟩
  have hdec : hl' = s.hlAddr - 1#16 := by
    have hHL : (s.h ++ s.l : Addr) = s.hlAddr := rfl
    rw [hHL] at hhl
    bv_omega
  subst hdec
  exact exec_ldHLmA_of_ok hw

/-- Settles O26: the record of the port's error is the whole effect. -/
theorem failedStoreRaisesThePortsFault : Obligations.FailedStoreRaisesThePortsFault :=
  fun _ _ h => exec_ldHLmA_of_error h

theorem Bus.write_reference_unmapped {bus : Bus} (h : bus.isReference) {addr : Addr} (v : Byte)
    (hhigh : 0x8000 ≤ addr.toNat) : bus.write addr v = .error { kind := .unmapped, addr := addr } := by
  rw [Bus.write_reference h, if_neg (by simpa using hhigh)]

theorem Bus.write_reference_outOfBounds {bus : Bus} (h : bus.isReference) {addr : Addr} (v : Byte)
    (hlow : addr.toNat < 0x8000) (hlen : bus.cart.len ≤ addr.toNat) :
    bus.write addr v = .error { kind := .outOfBounds, addr := addr } := by
  rw [Bus.write_reference h, if_pos (by simpa using hlow), Cartridge.writeFault, if_neg (Nat.not_lt.mpr hlen)]

theorem Bus.write_reference_unimplemented {bus : Bus} (h : bus.isReference) {addr : Addr} (v : Byte)
    (hlow : addr.toNat < 0x8000) (hlen : addr.toNat < bus.cart.len) :
    bus.write addr v = .error { kind := .unimplemented, addr := addr } := by
  rw [Bus.write_reference h, if_pos (by simpa using hlow), Cartridge.writeFault, if_pos hlen]

/-- Settles O27: the reference bus refuses every write, with the kind of the range its address lies in. -/
theorem storeOnReferenceBusAlwaysFaults : Obligations.StoreOnReferenceBusAlwaysFaults := by
  intro s href
  have hHL : (s.h ++ s.l : Addr) = s.hlAddr := rfl
  rw [hHL]
  split
  · rename_i hhigh
    exact ⟨_, _, exec_ldHLmA_of_error (Bus.write_reference_unmapped href s.a hhigh), rfl, rfl, rfl⟩
  · rename_i hlow
    rw [Nat.not_le] at hlow
    split
    · rename_i hlen
      exact ⟨_, _, exec_ldHLmA_of_error (Bus.write_reference_outOfBounds href s.a hlow hlen), rfl, rfl, rfl⟩
    · rename_i hlen
      rw [Nat.not_le] at hlen
      exact ⟨_, _, exec_ldHLmA_of_error (Bus.write_reference_unimplemented href s.a hlow hlen), rfl, rfl, rfl⟩

/-- Settles O37: the read and the write of each range, from the two maps of the reference bus. -/
theorem referenceBusMap : Obligations.ReferenceBusMap := by
  intro bus addr v href
  have hread := Bus.read_reference href addr
  rw [cartWindowEnd_eq] at hread
  refine ⟨fun hlow hlen => ⟨?_, Bus.write_reference_unimplemented href v hlow hlen⟩,
    fun hlow hlen => ⟨?_, Bus.write_reference_outOfBounds href v hlow hlen⟩,
    fun hhigh => ⟨?_, Bus.write_reference_unmapped href v hhigh⟩⟩
  · rw [hread, if_pos hlow, Cartridge.read, if_pos hlen]
  · rw [hread, if_pos hlow, Cartridge.read, if_neg (Nat.not_lt.mpr hlen)]
  · rw [hread, if_neg (Nat.not_lt.mpr hhigh)]

end Sys2Proof.Machine

/-! PROOFS. What each instruction and each Step leaves unchanged (10_state.md, 60_exceptions.md section 2). -/

namespace Sys2Proof.Machine

/-! ### Every instruction answers a next state -/

/-- What LD (HL-),A alone can touch is as before. -/
structure NoMemoryEffect (s t : State) : Prop where
  bus : t.bus = s.bus
  fault : t.fault = s.fault
  h : t.h = s.h
  l : t.l = s.l

theorem exec_noMemoryEffect {i : Instr} (hi : i ≠ .ldHLmA) (s : State) : ∃ t, exec i s = .next t ∧ NoMemoryEffect s t := by
  cases i with
  | ldHLmA => exact absurd rfl hi
  | jnz r8 => exact ⟨_, exec_jnz r8 s, rfl, rfl, rfl, rfl⟩
  | _ => exact ⟨_, rfl, rfl, rfl, rfl, rfl⟩

theorem exec_ldHLmA_next {s t : State} (h : exec .ldHLmA s = .next t) :
    (∃ bus', s.bus.write s.hlAddr s.a = .ok bus' ∧ t = afterStore s bus') ∨
    (∃ e, s.bus.write s.hlAddr s.a = .error e ∧ t = afterRefusedStore s e) := by
  cases hw : s.bus.write s.hlAddr s.a with
  | ok bus' =>
    cases (exec_ldHLmA_of_ok hw).symm.trans h
    exact .inl ⟨bus', rfl, rfl⟩
  | error e =>
    cases (exec_ldHLmA_of_error hw).symm.trans h
    exact .inr ⟨e, rfl, rfl⟩

theorem exec_total (i : Instr) (s : State) : ∃ t, exec i s = .next t := by
  by_cases hi : i = .ldHLmA
  · subst hi
    cases hw : s.bus.write s.hlAddr s.a with
    | ok bus' => exact ⟨_, exec_ldHLmA_of_ok hw⟩
    | error e => exact ⟨_, exec_ldHLmA_of_error hw⟩
  · obtain ⟨t, ht, -⟩ := exec_noMemoryEffect hi s
    exact ⟨t, ht⟩

/-- The three ways an instruction meets the memory port: not at all, by an accepted store, by a refused one. -/
theorem exec_next {i : Instr} {s t : State} (h : exec i s = .next t) :
    (i ≠ .ldHLmA ∧ NoMemoryEffect s t) ∨
    (i = .ldHLmA ∧ ∃ bus', s.bus.write s.hlAddr s.a = .ok bus' ∧ t = afterStore s bus') ∨
    (i = .ldHLmA ∧ ∃ e, s.bus.write s.hlAddr s.a = .error e ∧ t = afterRefusedStore s e) := by
  by_cases hi : i = .ldHLmA
  · subst hi
    exact .inr ((exec_ldHLmA_next h).imp (⟨rfl, ·⟩) (⟨rfl, ·⟩))
  · obtain ⟨t', ht', hkeep⟩ := exec_noMemoryEffect hi s
    cases ht'.symm.trans h
    exact .inl ⟨hi, hkeep⟩

/-- Settles O29: a next state with the same Bus has the same cartridge and the same reads. -/
theorem onlyTheStoreTouchesMemoryOrFaults : Obligations.OnlyTheStoreTouchesMemoryOrFaults := by
  intro i s hi
  obtain ⟨t, ht, hkeep⟩ := exec_noMemoryEffect hi s
  exact ⟨t, ht, hkeep.fault, by rw [hkeep.bus], fun addr => by rw [hkeep.bus]⟩

/-! ### Registers and flags -/

/-- The registers of the register file that an instruction may write. -/
def instrWrites : Instr → List Reg
  | .nop | .jnz _ | .jp _ => []
  | .decB => [.b, .f]
  | .decD => [.d, .f]
  | .xorA => [.a, .f]
  | .ldA _ => [.a]
  | .ldB _ => [.b]
  | .ldC _ => [.c]
  | .ldBC _ => [.b, .c]
  | .ldHLmA => [.h, .l]

theorem decRegister_getReg_other (s : State) {r r' : Reg} (hr : r' ≠ r) (hf : r' ≠ .f) :
    (decRegister r s).getReg r' = s.getReg r' := by
  simp only [decRegister, advance_getReg, setDecFlags_getReg_other _ _ _ _ hf, getReg_setReg_other _ _ _ _ hr]

theorem exec_keeps_reg {i : Instr} {s t : State} {r : Reg} (h : exec i s = .next t) (hr : r ∉ instrWrites i) :
    t.getReg r = s.getReg r := by
  cases i with
  | jnz r8 =>
    cases (exec_jnz r8 s).symm.trans h
    exact setPc_getReg s r _
  | ldHLmA =>
    simp only [instrWrites, List.mem_cons, List.not_mem_nil, or_false, not_or] at hr
    rcases execLdHLmA_cases s with ⟨bus', -, hs⟩ | ⟨e, -, hs⟩ <;> cases hs.symm.trans h
    · rw [advance_getReg, postDecrementHL_getReg_other _ _ hr.1 hr.2, setBus_getReg]
    · cases r <;> rfl
  | nop =>
    cases h
    exact advance_getReg s r 1
  | jp a16 =>
    cases h
    exact setPc_getReg s r a16
  | decB =>
    cases h
    simp only [instrWrites, List.mem_cons, List.not_mem_nil, or_false, not_or] at hr
    exact decRegister_getReg_other s hr.1 hr.2
  | decD =>
    cases h
    simp only [instrWrites, List.mem_cons, List.not_mem_nil, or_false, not_or] at hr
    exact decRegister_getReg_other s hr.1 hr.2
  | xorA =>
    cases h
    simp only [instrWrites, List.mem_cons, List.not_mem_nil, or_false, not_or] at hr
    rw [advance_getReg, clearFlags_getReg_other _ _ hr.2, getReg_setReg_other _ _ _ _ hr.1]
  | ldBC d16 =>
    cases h
    simp only [instrWrites, List.mem_cons, List.not_mem_nil, or_false, not_or] at hr
    rw [advance_getReg, setPair_getReg_other _ _ _ _ _ hr.1 hr.2]
  | _ =>
    cases h
    rw [advance_getReg, getReg_setReg_other _ _ _ _ (mt List.mem_singleton.mpr hr)]

theorem exec_keeps_sp {i : Instr} {s t : State} (h : exec i s = .next t) : t.sp = s.sp := by
  cases i with
  | ldHLmA => rcases exec_ldHLmA_next h with ⟨_, -, rfl⟩ | ⟨_, -, rfl⟩ <;> rfl
  | jnz r8 => cases (exec_jnz r8 s).symm.trans h; rfl
  | _ => cases h; rfl

/-! Which instructions list a register among their writes. -/

section
variable {i : Instr}

theorem a_mem_instrWrites : Reg.a ∈ instrWrites i ↔ i = .xorA ∨ ∃ d8, i = .ldA d8 := by
  cases i <;> simp [instrWrites]

theorem b_mem_instrWrites : Reg.b ∈ instrWrites i ↔ i = .decB ∨ (∃ d8, i = .ldB d8) ∨ ∃ d16, i = .ldBC d16 := by
  cases i <;> simp [instrWrites]

theorem c_mem_instrWrites : Reg.c ∈ instrWrites i ↔ (∃ d8, i = .ldC d8) ∨ ∃ d16, i = .ldBC d16 := by
  cases i <;> simp [instrWrites]

theorem d_mem_instrWrites : Reg.d ∈ instrWrites i ↔ i = .decD := by
  cases i <;> simp [instrWrites]

theorem e_not_mem_instrWrites : Reg.e ∉ instrWrites i := by
  cases i <;> simp [instrWrites]

theorem f_mem_instrWrites : Reg.f ∈ instrWrites i ↔ i = .xorA ∨ i = .decB ∨ i = .decD := by
  cases i <;> simp [instrWrites]

theorem h_mem_instrWrites : Reg.h ∈ instrWrites i ↔ i = .ldHLmA := by
  cases i <;> simp [instrWrites]

theorem l_mem_instrWrites : Reg.l ∈ instrWrites i ↔ i = .ldHLmA := by
  cases i <;> simp [instrWrites]

end

theorem mem_instrWrites_of_changed {i : Instr} {s t : State} {r : Reg} (h : exec i s = .next t)
    (hne : t.getReg r ≠ s.getReg r) : r ∈ instrWrites i :=
  by_contra fun hr => hne (exec_keeps_reg h hr)

/-- Settles O30: a register that changed is one of those the instruction may write. -/
theorem eachRegisterHasItsWriters : Obligations.EachRegisterHasItsWriters := by
  intro i s t h
  have changed : ∀ r, t.getReg r ≠ s.getReg r → r ∈ instrWrites i := fun _ => mem_instrWrites_of_changed h
  exact ⟨fun hne => a_mem_instrWrites.mp (changed .a hne), fun hne => b_mem_instrWrites.mp (changed .b hne),
    fun hne => c_mem_instrWrites.mp (changed .c hne), fun hne => d_mem_instrWrites.mp (changed .d hne),
    exec_keeps_reg h e_not_mem_instrWrites, fun hne => f_mem_instrWrites.mp (changed .f hne),
    fun hne => hne.elim (fun hh => h_mem_instrWrites.mp (changed .h hh)) (fun hl => l_mem_instrWrites.mp (changed .l hl)),
    exec_keeps_sp h⟩

/-! ### Flags -/

theorem decRegister_flag_n (s : State) (r : Reg) : (decRegister r s).flag .n = true := by
  simp [decRegister, State.setDecFlags]

theorem decRegister_flag_h (s : State) (r : Reg) :
    (decRegister r s).flag .h = decide ((s.getReg r).toNat % 16 = 0) := by
  simp [decRegister, State.setDecFlags, decHalfCarry_eq_decide_mod]

theorem decRegister_flag_c (s : State) {r : Reg} (h : r ≠ .f) : (decRegister r s).flag .c = s.flag .c := by
  simp [decRegister, State.setDecFlags, flag_setReg_other _ _ _ _ h]

/-- Settles O32: the three writers of F give N, H and C the values listed; every other instruction keeps F. -/
theorem otherFlagWriters : Obligations.OtherFlagWriters := by
  refine ⟨fun i s t h => ?_,
    fun bus resetPc => ⟨resetAt_flag bus resetPc .n, resetAt_flag bus resetPc .h, resetAt_flag bus resetPc .c⟩⟩
  cases i with
  | xorA =>
    cases h
    exact ⟨clearFlags_flag _ .n, clearFlags_flag _ .h, clearFlags_flag _ .c⟩
  | decB =>
    cases h
    exact ⟨decRegister_flag_n s .b, decRegister_flag_h s .b, decRegister_flag_c s (by decide)⟩
  | decD =>
    cases h
    exact ⟨decRegister_flag_n s .d, decRegister_flag_h s .d, decRegister_flag_c s (by decide)⟩
  | _ => exact ⟨exec_keeps_flag h rfl .n, exec_keeps_flag h rfl .h, exec_keeps_flag h rfl .c⟩

theorem exec_keeps_low_f {i : Instr} {s t : State} (h : exec i s = .next t) {k : Nat} (hk : k < 4) :
    t.f.getLsbD k = s.f.getLsbD k := by
  cases i with
  | xorA =>
    cases (exec_xorA s).symm.trans h
    rw [lowNibble_getLsbD, if_neg (by omega)]
  | decB =>
    cases (exec_decB s).symm.trans h
    rw [decFlagByte_getLsbD, if_neg (by omega), if_neg (by omega), if_neg (by omega)]
  | decD =>
    cases (exec_decD s).symm.trans h
    rw [decFlagByte_getLsbD, if_neg (by omega), if_neg (by omega), if_neg (by omega)]
  | _ => rw [exec_keeps_f h rfl]

theorem exec_flag_c {i : Instr} {s t : State} (h : exec i s = .next t) (hc : t.flag .c = true) : s.flag .c = true := by
  cases i with
  | xorA =>
    cases h
    cases (clearFlags_flag _ .c).symm.trans hc
  | decB =>
    cases h
    exact (decRegister_flag_c s (by decide)).symm.trans hc
  | decD =>
    cases h
    exact (decRegister_flag_c s (by decide)).symm.trans hc
  | _ => exact (exec_keeps_flag h rfl .c).symm.trans hc

end Sys2Proof.Machine

/-! PROOFS. The Step: its two answers, what it leaves, and what does not influence it (30_encoding.md R66 to R69, 60_exceptions.md
R93 to R97). -/

namespace Sys2Proof.Machine

/-! ### The response -/

theorem step_total {s : State} (hs : s.ready) : ∃ t, step s = .next t := by
  cases hf : fetchInstr s with
  | error info => exact ⟨_, step_of_fetch_error hs hf⟩
  | ok i =>
    obtain ⟨t, ht⟩ := exec_total i s
    exact ⟨t, (step_of_fetch hs hf).trans ht⟩

theorem stepResponse_done {s t : State} (h : step s = .next t) (ht : t.fault = none) : stepResponse s = some .done := by
  simp only [stepResponse, h, ht]

theorem stepResponse_faulted {s t : State} {info : FaultInfo} (h : step s = .next t) (ht : t.fault = some info) :
    stepResponse s = some (.faulted info) := by
  simp only [stepResponse, h, ht]

/-- Settles O8: the fetch's fault is taken, and every instruction answers a next state. -/
theorem readyCoreAnswersDoneOrFault : Obligations.ReadyCoreAnswersDoneOrFault := by
  intro s hs
  obtain ⟨t, ht⟩ := step_total hs
  exact ⟨t, ht, stepResponse_done ht, fun _ => stepResponse_faulted ht⟩

/-! ### Precise faults and PC -/

/-- An instruction of a ready CORE that leaves a fault is the store that its Bus refused. -/
theorem exec_faulting {i : Instr} {s t : State} (hs : s.ready) (h : exec i s = .next t) (ht : t.fault ≠ none) :
    t = { s with fault := t.fault } := by
  rcases exec_next h with ⟨-, hkeep⟩ | ⟨-, bus', -, rfl⟩ | ⟨-, e, -, rfl⟩
  · exact absurd (hkeep.fault.trans hs) ht
  · exact absurd hs ht
  · rfl

/-- Settles O9: a fetch fault and a refused store each write the latch alone, and nothing else leaves a fault. -/
theorem faultingStepChangesOnlyTheLatch : Obligations.FaultingStepChangesOnlyTheLatch := by
  intro s t h ht
  obtain ⟨hs, ⟨info, -, rfl⟩ | ⟨i, -, hexec⟩⟩ := step_next h
  · rfl
  · exact exec_faulting hs hexec ht

/-- PC after an instruction that completes (R69, R77, R78). -/
def completedPc (i : Instr) (s : State) : Addr :=
  match i with
  | .jp a16 => a16
  | .jnz r8 => if s.f.getLsbD 7 then s.pc + 2#16 else s.pc + 2#16 + r8.signExtend 16
  | _ => s.pc + BitVec.ofNat 16 i.length

theorem exec_pc {i : Instr} {s t : State} (h : exec i s = .next t) (ht : t.fault = none) : t.pc = completedPc i s := by
  cases i with
  | ldHLmA =>
    rcases exec_ldHLmA_next h with ⟨_, -, rfl⟩ | ⟨_, -, rfl⟩
    · rfl
    · cases ht
  | jnz r8 => cases (exec_jnz r8 s).symm.trans h; rfl
  | _ => cases h; rfl

/-- Settles O12: an empty latch says that the fetch succeeded and the instruction completed. -/
theorem completedStepPc : Obligations.CompletedStepPc := by
  intro s t h ht
  obtain ⟨-, ⟨info, -, rfl⟩ | ⟨i, hfetch, hexec⟩⟩ := step_next h
  · cases ht
  · exact ⟨i, hfetch, exec_pc hexec ht⟩

/-! ### The frame of a Step -/

/-- Settles O33: a fault taken writes the latch alone, and no instruction writes E, SP or F[3:0] or sets C. -/
theorem stepLeavesUnreachedState : Obligations.StepLeavesUnreachedState := by
  intro s t h
  obtain ⟨-, ⟨info, -, rfl⟩ | ⟨i, -, hexec⟩⟩ := step_next h
  · exact ⟨rfl, rfl, rfl, id⟩
  · refine ⟨exec_keeps_reg hexec e_not_mem_instrWrites, exec_keeps_sp hexec, ?_, exec_flag_c hexec⟩
    refine BitVec.eq_of_getLsbD_eq fun k hk => ?_
    simp [exec_keeps_low_f hexec hk]

theorem exec_reference {i : Instr} {s t : State} (href : s.bus.isReference) (h : exec i s = .next t) :
    t.bus = s.bus ∧ t.h = s.h ∧ t.l = s.l := by
  rcases exec_next h with ⟨-, hkeep⟩ | ⟨-, bus', hw, -⟩ | ⟨-, e, -, rfl⟩
  · exact ⟨hkeep.bus, hkeep.h, hkeep.l⟩
  · cases (Bus.write_reference href _ _).symm.trans hw
  · exact ⟨rfl, rfl, rfl⟩

/-- Settles O40: the reference bus refuses every store, so none is followed by its decrement of HL. -/
theorem referenceBusStepChangesNoMemory : Obligations.ReferenceBusStepChangesNoMemory := by
  intro s t href h
  obtain ⟨-, ⟨info, -, rfl⟩ | ⟨i, -, hexec⟩⟩ := step_next h
  · exact ⟨rfl, rfl, rfl⟩
  · exact exec_reference href hexec

/-! ### What no instruction reads -/

/-- `s` with other values in C, E, SP and F. -/
def withUnread (s : State) (c e f : Byte) (sp : Addr) : State :=
  { s with c := c, e := e, f := f, sp := sp }

/-- `s'` went to `t'` as `s` to `t`: the same outside C, E, F and SP, with the same Z; C and each other bit of F both kept or both
made the same; E and SP both kept. -/
structure SameEffect (s t s' t' : State) : Prop where
  rest : { t' with c := t.c, e := t.e, f := t.f, sp := t.sp } = t
  z : t'.f.getLsbD 7 = t.f.getLsbD 7
  c : (t'.c = s'.c ∧ t.c = s.c) ∨ t'.c = t.c
  f : ∀ k < 7, (t'.f.getLsbD k = s'.f.getLsbD k ∧ t.f.getLsbD k = s.f.getLsbD k) ∨ t'.f.getLsbD k = t.f.getLsbD k
  e : t'.e = s'.e ∧ t.e = s.e
  sp : t'.sp = s'.sp ∧ t.sp = s.sp

/-- DEC writes H, N and Z from its operand, and keeps the bits below. -/
theorem decFlagByte_getLsbD_kept_or_same (old res f f' : Byte) (k : Nat) :
    ((decFlagByte old res f').getLsbD k = f'.getLsbD k ∧ (decFlagByte old res f).getLsbD k = f.getLsbD k) ∨
      (decFlagByte old res f').getLsbD k = (decFlagByte old res f).getLsbD k := by
  simp only [decFlagByte_getLsbD]
  by_cases hk : k = 5 ∨ k = 6 ∨ k = 7
  · right
    rcases hk with rfl | rfl | rfl <;> rfl
  · rw [not_or, not_or] at hk
    simp [hk]

theorem decFlagByte_z (old res f : Byte) : (decFlagByte old res f).getLsbD 7 = decZero res :=
  decFlagByte_getLsbD old res f 7

theorem lowNibble_getLsbD_kept_or_same (f f' : Byte) (k : Nat) :
    ((f' &&& 0x0F#8).getLsbD k = f'.getLsbD k ∧ (f &&& 0x0F#8).getLsbD k = f.getLsbD k) ∨
      (f' &&& 0x0F#8).getLsbD k = (f &&& 0x0F#8).getLsbD k := by
  simp only [lowNibble_getLsbD]
  by_cases hk : 4 ≤ k ∧ k < 8
  · simp [hk]
  · simp [hk]

theorem exec_withUnread {i : Instr} {s t : State} {c e f : Byte} {sp : Addr} (hz : f.getLsbD 7 = s.f.getLsbD 7)
    (h : exec i s = .next t) :
    ∃ t', exec i (withUnread s c e f sp) = .next t' ∧ SameEffect s t (withUnread s c e f sp) t' := by
  cases i with
  | xorA =>
    cases (exec_xorA s).symm.trans h
    exact ⟨_, exec_xorA _, rfl, by simp, .inl ⟨rfl, rfl⟩,
      fun k _ => lowNibble_getLsbD_kept_or_same _ _ k, ⟨rfl, rfl⟩, rfl, rfl⟩
  | decB =>
    cases (exec_decB s).symm.trans h
    exact ⟨_, exec_decB _, rfl, (decFlagByte_z _ _ _).trans (decFlagByte_z _ _ _).symm, .inl ⟨rfl, rfl⟩,
      fun k _ => decFlagByte_getLsbD_kept_or_same _ _ _ _ k, ⟨rfl, rfl⟩, rfl, rfl⟩
  | decD =>
    cases (exec_decD s).symm.trans h
    exact ⟨_, exec_decD _, rfl, (decFlagByte_z _ _ _).trans (decFlagByte_z _ _ _).symm, .inl ⟨rfl, rfl⟩,
      fun k _ => decFlagByte_getLsbD_kept_or_same _ _ _ _ k, ⟨rfl, rfl⟩, rfl, rfl⟩
  | ldC d8 =>
    cases h
    exact ⟨_, rfl, rfl, hz, .inr rfl, fun _ _ => .inl ⟨rfl, rfl⟩, ⟨rfl, rfl⟩, rfl, rfl⟩
  | ldBC d16 =>
    cases h
    exact ⟨_, rfl, rfl, hz, .inr rfl, fun _ _ => .inl ⟨rfl, rfl⟩, ⟨rfl, rfl⟩, rfl, rfl⟩
  | jnz r8 =>
    cases (exec_jnz r8 s).symm.trans h
    refine ⟨_, exec_jnz r8 _, ?_, hz, .inl ⟨rfl, rfl⟩, fun _ _ => .inl ⟨rfl, rfl⟩, ⟨rfl, rfl⟩, rfl, rfl⟩
    simp only [withUnread, hz]
  | ldHLmA =>
    rcases exec_ldHLmA_next h with ⟨bus', hw, rfl⟩ | ⟨e, hw, rfl⟩
    · exact ⟨_, exec_ldHLmA_of_ok hw, rfl, hz, .inl ⟨rfl, rfl⟩, fun _ _ => .inl ⟨rfl, rfl⟩, ⟨rfl, rfl⟩, rfl, rfl⟩
    · exact ⟨_, exec_ldHLmA_of_error hw, rfl, hz, .inl ⟨rfl, rfl⟩, fun _ _ => .inl ⟨rfl, rfl⟩, ⟨rfl, rfl⟩, rfl, rfl⟩
  | _ =>
    cases h
    exact ⟨_, rfl, rfl, hz, .inl ⟨rfl, rfl⟩, fun _ _ => .inl ⟨rfl, rfl⟩, ⟨rfl, rfl⟩, rfl, rfl⟩

/-- The fetch reads PC and the Bus alone. -/
theorem fetchInstr_withUnread (s : State) (c e f : Byte) (sp : Addr) :
    fetchInstr (withUnread s c e f sp) = fetchInstr s := rfl

theorem step_withUnread {s t : State} {c e f : Byte} {sp : Addr} (hz : f.getLsbD 7 = s.f.getLsbD 7)
    (h : step s = .next t) :
    ∃ t', step (withUnread s c e f sp) = .next t' ∧ SameEffect s t (withUnread s c e f sp) t' := by
  obtain ⟨hs, hcases⟩ := step_next h
  have hs' : (withUnread s c e f sp).ready := hs
  rw [← fetchInstr_withUnread s c e f sp] at hcases
  rcases hcases with ⟨info, hf, rfl⟩ | ⟨i, hf, hexec⟩
  · exact ⟨_, step_of_fetch_error hs' hf, rfl, hz, .inl ⟨rfl, rfl⟩, fun _ _ => .inl ⟨rfl, rfl⟩,
      ⟨rfl, rfl⟩, rfl, rfl⟩
  · obtain ⟨t', ht', hsame⟩ := exec_withUnread hz hexec
    exact ⟨t', (step_of_fetch hs' hf).trans ht', hsame⟩

/-- Settles O13: the fetch does not read C, E, F or SP, and each instruction reads of them Z alone. -/
theorem unreadStateDoesNotInfluenceAStep : Obligations.UnreadStateDoesNotInfluenceAStep := by
  intro s t c e f sp hz h
  obtain ⟨t', ht', hsame⟩ := step_withUnread hz h
  exact ⟨t', ht', hsame.rest, hsame.z, hsame.c, hsame.f, hsame.e, hsame.sp⟩

end Sys2Proof.Machine

/-! PROOFS. Memories and the frame of a store (20_memory.md sections 3 to 6). -/

namespace Sys2Proof.Machine

/-! ### Memories in canonical form -/

theorem Memory.wf_cons {bound : Nat} {cell : Host.Cell} {rest : Memory} (h : Memory.wf bound (cell :: rest)) :
    (∀ x ∈ rest, cell.1 < x.1) ∧ cell.2 ≠ Config.blankByte ∧ Memory.wf bound rest := by
  obtain ⟨hrise, hcells⟩ := h
  obtain ⟨hlt, hrise'⟩ := List.pairwise_cons.mp hrise
  exact ⟨hlt, (hcells cell List.mem_cons_self).2, hrise', fun x hx => hcells x (List.mem_cons_of_mem _ hx)⟩

theorem Memory.read_cons_self (cell : Host.Cell) (rest : Memory) : Memory.read (cell :: rest) cell.1 = cell.2 :=
  if_pos rfl

theorem Memory.read_cons_of_ne (cell : Host.Cell) (rest : Memory) {addr : Nat} (h : addr ≠ cell.1) :
    Memory.read (cell :: rest) addr = Memory.read rest addr :=
  if_neg h.symm

/-- A memory whose first byte lies below every byte of another does not read as the other there. -/
theorem Memory.read_cons_ne_of_lt {bound : Nat} {cell : Host.Cell} {rest m : Memory}
    (hwf : Memory.wf bound (cell :: rest)) (hlt : ∀ x ∈ m, cell.1 < x.1) :
    Memory.read (cell :: rest) cell.1 ≠ Memory.read m cell.1 := by
  obtain ⟨-, hne, -⟩ := Memory.wf_cons hwf
  rwa [Memory.read_cons_self, Memory.read_of_lt m hlt]

/-- Two memories that read alike list the same lowest address. -/
theorem Memory.head_le_of_read_eq {bound : Nat} {cell cell' : Host.Cell} {rest rest' : Memory}
    (hwf : Memory.wf bound (cell :: rest)) (hwf' : Memory.wf bound (cell' :: rest'))
    (h : ∀ addr, Memory.read (cell :: rest) addr = Memory.read (cell' :: rest') addr) : cell'.1 ≤ cell.1 := by
  by_contra hlt
  rw [Nat.not_le] at hlt
  obtain ⟨hrest', -, -⟩ := Memory.wf_cons hwf'
  refine Memory.read_cons_ne_of_lt hwf (fun x hx => ?_) (h cell.1)
  rcases List.mem_cons.mp hx with rfl | hx
  · exact hlt
  · exact hlt.trans (hrest' x hx)

/-- Settles O39, by induction on the first list: the lowest addresses agree, so the cells there do, and so do the rests. -/
theorem canonicalMemoriesAreExtensional : Obligations.CanonicalMemoriesAreExtensional := by
  intro bound m
  induction m with
  | nil =>
    intro m' _ hwf' h
    cases m' with
    | nil => rfl
    | cons cell' rest' => exact absurd (h cell'.1).symm (Memory.read_cons_ne_of_lt hwf' (by simp))
  | cons cell rest ih =>
    intro m' hwf hwf' h
    cases m' with
    | nil => exact absurd (h cell.1) (Memory.read_cons_ne_of_lt hwf (by simp))
    | cons cell' rest' =>
      have haddr : cell.1 = cell'.1 :=
        Nat.le_antisymm (Memory.head_le_of_read_eq hwf' hwf fun a => (h a).symm) (Memory.head_le_of_read_eq hwf hwf' h)
      have hcell : cell = cell' := by
        have hval := h cell.1
        rw [Memory.read_cons_self, haddr, Memory.read_cons_self] at hval
        exact Prod.ext haddr hval
      subst hcell
      obtain ⟨hlt, -, hrest⟩ := Memory.wf_cons hwf
      obtain ⟨hlt', -, hrest'⟩ := Memory.wf_cons hwf'
      rw [ih rest' hrest hrest' fun addr => ?_]
      by_cases ha : addr = cell.1
      · rw [ha, Memory.read_of_lt rest hlt, Memory.read_of_lt rest' hlt']
      · simpa only [Memory.read_cons_of_ne _ _ ha] using h addr

/-! ### Accepted writes -/

/-- Settles O38: the four facts about an accepted write, over RAM and a port alike. -/
theorem acceptedWriteReadsBack : Obligations.AcceptedWriteReadsBack :=
  fun _ _ _ _ hwf h => ⟨Bus.read_write_same hwf h, fun _ hne hholds => Bus.read_write_other hne hholds h,
    Bus.write_wf hwf h, (Bus.write_map h).2⟩

/-- Settles O28: the Bus after the store is the one the write returned, or the one before. -/
theorem storeTouchesOnlyTheByteAtHL : Obligations.StoreTouchesOnlyTheByteAtHL := by
  intro s t hwf h
  rcases exec_ldHLmA_next h with ⟨bus', hw, rfl⟩ | ⟨e, hw, rfl⟩
  · refine ⟨fun addr hne hholds => (Bus.read_write_other hne hholds hw).1, fun bus'' hw' => ?_, fun e he => ?_⟩
    · cases hw.symm.trans hw'
      exact ⟨rfl, Bus.read_write_same hwf hw⟩
    · cases hw.symm.trans he
  · refine ⟨fun _ _ _ => rfl, fun bus'' hw' => ?_, fun _ _ => rfl⟩
    cases hw.symm.trans hw'

end Sys2Proof.Machine

/-! PROOFS. The invariant of every Step, the reset shape, and runs (60_exceptions.md sections 1 and 2,
70_reset_and_hazards.md). -/

namespace Sys2Proof.Machine

/-! ### The records that faults leave -/

theorem toFaultKind_ne_unimplementedOpcode (kind : MemFaultKind) : kind.toFaultKind ≠ .unimplementedOpcode := by
  cases kind <;> decide

/-- A record of the memory port: the opcode is missing for the opcode fetch alone, the value is there for a store alone. -/
theorem FaultInfo.wf_of_access {kind : MemFaultKind} {pc addr : Addr} {op value : Option Byte} {access : Access}
    (hop : op = none ↔ access = .fetchOpcode) (hvalue : value = none ↔ access ≠ .store) :
    FaultInfo.wf { kind := kind.toFaultKind, pc := pc, opcode := op, addr := some addr, access := some access,
                   value := value } := by
  have hkind := toFaultKind_ne_unimplementedOpcode kind
  simp [FaultInfo.wf, hop, hvalue, hkind]

theorem unimplementedOpcodeInfo_wf (pc : Addr) (op : Byte) : (unimplementedOpcodeInfo pc op).wf := by
  simp [FaultInfo.wf, unimplementedOpcodeInfo]

theorem fetchInstr_error_record {s : State} {info : FaultInfo} (h : fetchInstr s = .error info) :
    info.wf ∧ info.pc = s.pc := by
  rcases fetchInstr_error h with ⟨op, access, e, addr, -, rfl, hop, hstore⟩ | ⟨op, -, -, rfl⟩
  · exact ⟨FaultInfo.wf_of_access hop (by simpa using hstore), rfl⟩
  · exact ⟨unimplementedOpcodeInfo_wf s.pc op, rfl⟩

/-! ### The invariant -/

theorem latchWf_of_ready {s : State} (hs : s.ready) : s.latchWf := by
  intro info hinfo
  rw [Option.mem_def, hs] at hinfo
  cases hinfo

theorem latchWf_of_fault {s : State} {info : FaultInfo} (h : s.fault = some info) (hwf : info.wf) (hpc : info.pc = s.pc) :
    s.latchWf := by
  intro info' hinfo
  cases h.symm.trans hinfo
  exact ⟨hwf, hpc⟩

theorem exec_keeps_Inv {i : Instr} {s t : State} (hs : s.ready) (hinv : s.Inv) (h : exec i s = .next t) : t.Inv := by
  obtain ⟨hbus, -⟩ := hinv
  rcases exec_next h with ⟨-, hkeep⟩ | ⟨-, bus', hw, rfl⟩ | ⟨-, e, -, rfl⟩
  · exact ⟨hkeep.bus ▸ hbus, latchWf_of_ready (hkeep.fault.trans hs)⟩
  · exact ⟨Bus.write_wf hbus hw, latchWf_of_ready hs⟩
  · exact ⟨hbus, latchWf_of_fault rfl (FaultInfo.wf_of_access (by simp) (by simp)) rfl⟩

/-- Settles O41: a fetch fault latches a well-formed record, and each way an instruction meets the memory port keeps both halves
of the invariant. -/
theorem stepKeepsTheInvariant : Obligations.StepKeepsTheInvariant := by
  intro s t hinv h
  obtain ⟨hs, ⟨info, hfetch, rfl⟩ | ⟨i, -, hexec⟩⟩ := step_next h
  · obtain ⟨hwf, hpc⟩ := fetchInstr_error_record hfetch
    exact ⟨hinv.1, latchWf_of_fault rfl hwf hpc⟩
  · exact exec_keeps_Inv hs hinv hexec

theorem resetAt_Inv {bus : Bus} (hbus : bus.wf) (resetPc : Addr) : (State.resetAt bus resetPc).Inv :=
  ⟨hbus, latchWf_of_ready rfl⟩

/-- Settles O42: Reset clears the latch and leaves the Bus. -/
theorem resetMeetsTheInvariant : Obligations.ResetMeetsTheInvariant :=
  ⟨fun _ resetPc hbus => resetAt_Inv hbus resetPc, resetAt_Inv reset_bus_wf _⟩

/-- Settles O43: Reset is the reset state on the Bus of the state it acts on. -/
theorem resetSetsEveryRegister : Obligations.ResetSetsEveryRegister :=
  fun _ _ => rfl

/-! ### The reset shape -/

theorem step_keeps_resetShape {s t : State} (hshape : s.resetShape) (h : step s = .next t) : t.resetShape := by
  obtain ⟨hc, hf, hsp, he⟩ := hshape
  obtain ⟨he', hsp', hf', hc'⟩ := stepLeavesUnreachedState s t h
  refine ⟨Bool.eq_false_iff.mpr fun hset => ?_, hf'.trans hf, hsp'.trans hsp, he'.trans he⟩
  exact Bool.false_ne_true (hc.symm.trans (hc' hset))

/-- HL at 0 on a Bus that is still the one it was: what reset leaves, and on the reference bus every Step keeps. -/
def StillAtZeroOn (bus : Bus) (s : State) : Prop :=
  s.h = 0x00 ∧ s.l = 0x00 ∧ s.bus = bus

theorem step_keeps_stillAtZeroOn {bus : Bus} {s t : State} (href : bus.isReference) (hs : StillAtZeroOn bus s)
    (h : step s = .next t) : StillAtZeroOn bus t := by
  obtain ⟨hh, hl, rfl⟩ := hs
  obtain ⟨hbus', hh', hl'⟩ := referenceBusStepChangesNoMemory s t href h
  exact ⟨hh'.trans hh, hl'.trans hl, hbus'⟩

theorem resetAt_resetShape (bus : Bus) (resetPc : Addr) : (State.resetAt bus resetPc).resetShape :=
  ⟨resetAt_flag bus resetPc .c, rfl, rfl, rfl⟩

theorem Reachable.resetShape {bus : Bus} {s : State} (h : Reachable bus s) : s.resetShape := by
  induction h with
  | reset resetPc => exact resetAt_resetShape bus resetPc
  | step s t _ hstep ih => exact step_keeps_resetShape ih hstep
  | resetAgain s resetPc _ _ => exact resetAt_resetShape s.bus resetPc

theorem Reachable.stillAtZeroOn {bus : Bus} {s : State} (href : bus.isReference) (h : Reachable bus s) :
    StillAtZeroOn bus s := by
  induction h with
  | reset resetPc => exact ⟨rfl, rfl, rfl⟩
  | step s t _ hstep ih => exact step_keeps_stillAtZeroOn href ih hstep
  | resetAgain s resetPc _ ih =>
    obtain ⟨-, -, hbus⟩ := ih
    exact ⟨rfl, rfl, hbus⟩

/-- Settles O44: both shapes are kept by a Step and hold after Reset; reachability is the induction over the two. -/
theorem reachableStatesKeepTheResetShape : Obligations.ReachableStatesKeepTheResetShape := by
  refine ⟨fun s t => step_keeps_resetShape, fun s t href hh hl h => ?_,
    fun bus resetPc => ⟨resetAt_resetShape bus resetPc, rfl, rfl⟩,
    fun bus s h => ⟨h.resetShape, fun href => h.stillAtZeroOn href⟩⟩
  exact step_keeps_stillAtZeroOn href ⟨hh, hl, rfl⟩ h

/-! ### Runs -/

theorem drive_append (rs rs' : List Request) (s : State) : drive (rs ++ rs') s = drive rs' (drive rs s) := by
  induction rs generalizing s with
  | nil => rfl
  | cons r rs ih => exact ih (serve r s)

theorem serve_step_of_next {s t : State} (h : step s = .next t) : serve .step s = t := by
  simp only [serve, h]

theorem serve_step_of_latched {s : State} (h : s.fault ≠ none) : serve .step s = s := by
  obtain ⟨info, hinfo⟩ := Option.ne_none_iff_exists'.mp h
  simp only [serve, step_of_latched hinfo]

theorem drive_steps_of_latched {s : State} {requests : List Request} (h : s.fault ≠ none)
    (hr : ∀ r ∈ requests, r = .step) : drive requests s = s := by
  induction requests with
  | nil => rfl
  | cons r rest ih =>
    obtain ⟨rfl, hrest⟩ := List.forall_mem_cons.mp hr
    rw [drive, serve_step_of_latched h, ih hrest]

/-- Settles O11: the Steps leave the latched state as it is, and the Reset after them acts on it. -/
theorem onlyResetLeavesAFault : Obligations.OnlyResetLeavesAFault := by
  intro s requests resetPc h hr
  have hsteps := drive_steps_of_latched h hr
  refine ⟨hsteps, ?_⟩
  rw [drive_append, hsteps]
  rfl

theorem safeRun_iff (n : Nat) (s : State) : SafeRun n s ↔ (drive (List.replicate n .step) s).fault = none := by
  cases hlast : (drive (List.replicate n .step) s).fault <;> simp [SafeRun, runEnd, hlast]

/-- Settles O45: the run of n Steps goes on from the run of m, and a latch set by then stays. -/
theorem safeRunsAreSafeThroughout : Obligations.SafeRunsAreSafeThroughout := by
  intro n m s hle hn
  obtain ⟨k, rfl⟩ := Nat.exists_eq_add_of_le hle
  rw [safeRun_iff] at hn ⊢
  rw [List.replicate_add, drive_append] at hn
  by_contra hm
  rw [drive_steps_of_latched hm fun _ => List.eq_of_mem_replicate] at hn
  exact hm hn

/-- Settles O46, by induction on the number of steps: the host's run answers a next state only through next states. -/
theorem hostRunIsTheDriversRun : Obligations.HostRunIsTheDriversRun := by
  intro n
  induction n with
  | zero =>
    intro s t h
    cases h
    rfl
  | succ n ih =>
    intro s t h
    cases hstep : step s with
    | next s' =>
      rw [run_next core hstep] at h
      rw [List.replicate_succ, drive, serve_step_of_next hstep]
      exact ih s' t h
    | fault r => cases (run_fault core hstep).symm.trans h
    | refused r => cases (run_refused core hstep).symm.trans h

/-! ### The checking host's entry -/

/-- Bytes placed on a well-formed Bus are read back, each at its own address, as long as the addresses do not come round. -/
theorem Bus.withBytes_read {bus : Bus} (hbus : bus.wf) (addr : Addr) (bs : List Byte) (hlen : bs.length ≤ 0x10000) :
    (∀ (k : Nat) (hk : k < bs.length), (bus.withBytes addr bs).read (addr + BitVec.ofNat 16 k) = .ok bs[k]) ∧
    ∀ other, (∀ k < bs.length, other ≠ addr + BitVec.ofNat 16 k) →
      (bus.withBytes addr bs).read other = bus.read other := by
  induction bs generalizing bus addr with
  | nil => exact ⟨fun k hk => absurd hk (Nat.not_lt_zero k), fun _ _ => rfl⟩
  | cons v rest ih =>
    rw [List.length_cons] at hlen
    obtain ⟨hwf, hself, hother⟩ := Bus.withByte_spec addr v hbus
    obtain ⟨hread, hframe⟩ := ih hwf (addr + 1#16) (by omega)
    have hnext : ∀ k, addr + 1#16 + BitVec.ofNat 16 k = addr + BitVec.ofNat 16 (k + 1) := fun k => by
      rw [BitVec.add_assoc, BitVec.add_comm 1#16, ← BitVec.ofNat_add]
    refine ⟨fun k hk => ?_, fun other hne => ?_⟩
    · cases k with
      | zero =>
        have haddr : addr + BitVec.ofNat 16 0 = addr := BitVec.add_zero addr
        rw [haddr]
        refine (hframe addr fun k hk => ?_).trans hself
        bv_omega
      | succ k =>
        rw [← hnext]
        exact hread k (by simpa using hk)
    · have hfirst : other ≠ addr := by simpa using hne 0 (by simp)
      refine (hframe other fun k hk => ?_).trans (hother other hfirst)
      rw [hnext]
      exact hne (k + 1) (by simpa using hk)

theorem decodeTableWord_some {nbits w : Nat} {i : Instr} (h : decodeTableWord nbits w = some i) :
    ∃ rest, decode (tableWordBytes nbits w) = .ok (i, rest) := by
  unfold decodeTableWord at h
  split at h <;> cases h
  exact ⟨_, ‹_›⟩

/-- Settles O47: the Step fetches the three bytes placed, which decode to the instruction. -/
theorem placedWordIsRun : Obligations.PlacedWordIsRun := by
  intro s nbits w i hbus h
  obtain ⟨rest, hdec⟩ := decodeTableWord_some h
  obtain ⟨hread, -⟩ := Bus.withBytes_read hbus s.pc (tableWordBytes nbits w) (by simp [tableWordBytes])
  exact step_of_fetch rfl (fetchInstr_of_decode hread hdec)

end Sys2Proof.Machine

/-! PROOFS. The header accessors (20_memory.md section 7) and the assembler's JNZ (30_encoding.md R72). -/

namespace Sys2Proof.Machine

/-! ### The title -/

/-- The zeros that are dropped from the end of a list of bytes are all that is dropped. -/
theorem rdropWhile_zero_append (bs : List Byte) :
    bs.rdropWhile (fun b => b == 0x00#8) ++ List.replicate (bs.rtakeWhile (fun b => b == 0x00#8)).length 0x00#8 = bs := by
  have hzeros : bs.rtakeWhile (fun b => b == 0x00#8) =
      List.replicate (bs.rtakeWhile (fun b => b == 0x00#8)).length 0x00#8 :=
    List.eq_replicate_of_mem fun b hb => by simpa using List.mem_rtakeWhile_imp hb
  rw [← hzeros, List.rdropWhile_append_rtakeWhile]

theorem rdropWhile_zero_getLast? (bs : List Byte) :
    (bs.rdropWhile (fun b => b == 0x00#8)).getLast? ≠ some 0x00#8 := by
  intro h
  obtain ⟨hne, hlast⟩ := List.mem_getLast?_eq_getLast h
  exact List.rdropWhile_last_not (fun b => b == 0x00#8) bs hne (by simp [← hlast])

/-- Settles O49: the 16 bytes are read, and dropping from their end drops zeros alone and all of them. -/
theorem titleDropsTrailingZeros : Obligations.TitleDropsTrailingZeros := by
  intro c hlen
  have hbytes := headerBytes_of_le (c := c) (offset := 0x0134) (count := 16) (by omega)
  exact ⟨_, _, by simp only [headerTitle, hbytes], rdropWhile_zero_append _, rdropWhile_zero_getLast? _⟩

/-! ### The other accessors -/

theorem headerSizeKB_of_lt {c : Cartridge} (hlen : 0x0148 < c.len) :
    headerSizeKB c =
      if (Memory.read c.content 0x0148).toNat ≤ 8 then .ok (32 * 2 ^ (Memory.read c.content 0x0148).toNat)
      else .error (.sizeClassRefused (Memory.read c.content 0x0148)) := by
  simp only [headerSizeKB, headerByte_of_lt hlen]

/-- Settles O50: each accessor is a read at its offset, which the image holds. -/
theorem headerAccessorsReadTheirOffsets : Obligations.HeaderAccessorsReadTheirOffsets := by
  intro c hlen
  have hsize := headerSizeKB_of_lt (c := c) (by omega)
  refine ⟨headerBytes_of_le (by omega), headerBytes_of_le (by omega), headerByte_of_lt (by omega), headerByte_of_lt (by omega),
    headerByte_of_lt (by omega), headerByte_of_lt (by omega), headerByte_of_lt (by omega), fun k hk hle => ?_, fun hgt => ?_⟩
  · rw [hsize, hk, if_pos hle]
  · rw [hsize, if_neg (Nat.not_le.mpr hgt)]

/-! ### JNZ in assembly -/

theorem jnzOffsetWellFormed_iff (offset : Int) : jnzOffsetWellFormed offset = true ↔ -128 ≤ offset ∧ offset ≤ 127 := by
  simp [jnzOffsetWellFormed]

theorem assembleJnzOffset_of_range {offset : Int} (h : -128 ≤ offset ∧ offset ≤ 127) :
    assembleJnzOffset offset = some (.jnz (BitVec.ofInt 8 offset)) :=
  if_pos ((jnzOffsetWellFormed_iff offset).mpr h)

theorem assembleJnzOffset_of_not_range {offset : Int} (h : ¬(-128 ≤ offset ∧ offset ≤ 127)) :
    assembleJnzOffset offset = none :=
  if_neg (mt (jnzOffsetWellFormed_iff offset).mp h)

theorem assembleJnzTarget_of_range {pc0 target : Addr}
    (h : -128 ≤ (target - (pc0 + 2#16)).toInt ∧ (target - (pc0 + 2#16)).toInt ≤ 127) :
    assembleJnzTarget pc0 target = some (.jnz (loByte (target - (pc0 + 2#16)))) :=
  if_pos ((jnzOffsetWellFormed_iff _).mpr h)

theorem assembleJnzTarget_of_not_range {pc0 target : Addr}
    (h : ¬(-128 ≤ (target - (pc0 + 2#16)).toInt ∧ (target - (pc0 + 2#16)).toInt ≤ 127)) :
    assembleJnzTarget pc0 target = none :=
  if_neg (mt (jnzOffsetWellFormed_iff _).mp h)

theorem toInt_ofInt_of_range {offset : Int} (h : -128 ≤ offset ∧ offset ≤ 127) :
    (BitVec.ofInt 8 offset).toInt = offset := by
  obtain ⟨hlow, hhigh⟩ := h
  rw [BitVec.toInt_ofInt]
  exact Int.bmod_eq_of_le (by omega) (by omega)

/-- A word's low byte is the byte of its signed value. -/
theorem loByte_eq_ofInt (d : Addr) : loByte d = BitVec.ofInt 8 d.toInt := by
  have hlo := loByte_toNat d
  have hof : ((BitVec.ofInt 8 d.toInt).toNat : Int) = d.toInt % 256 := by
    rw [BitVec.toNat_ofInt]
    exact Int.toNat_of_nonneg (Int.emod_nonneg _ (by decide))
  have hd := BitVec.toInt_eq_toNat_cond d
  refine BitVec.eq_of_toNat_eq ?_
  split at hd <;> omega

/-- A distance that fits a byte comes back from its low byte by sign extension. -/
theorem signedOffset_loByte_of_range {d : Addr} (h : -128 ≤ d.toInt ∧ d.toInt ≤ 127) : signedOffset (loByte d) = d := by
  refine BitVec.eq_of_toInt_eq ?_
  rw [signedOffset_toInt, loByte_eq_ofInt, toInt_ofInt_of_range h]

/-- Settles O51: the range decides, the offset's byte holds its value, and the target's distance comes back from its byte. -/
theorem assembledJnzReachesItsTarget : Obligations.AssembledJnzReachesItsTarget := by
  refine ⟨fun pc0 target h => assembleJnzTarget_of_not_range (by omega), fun pc0 target hlow hhigh => ?_,
    fun offset hlow hhigh => ⟨_, assembleJnzOffset_of_range ⟨hlow, hhigh⟩, toInt_ofInt_of_range ⟨hlow, hhigh⟩⟩,
    fun offset h => assembleJnzOffset_of_not_range (by omega)⟩
  refine ⟨_, assembleJnzTarget_of_range ⟨hlow, hhigh⟩, ?_⟩
  rw [relativeTarget, signedOffset_loByte_of_range ⟨hlow, hhigh⟩, BitVec.add_comm, BitVec.sub_add_cancel]

end Sys2Proof.Machine

/-! PROOFS. Every Bus with finitely many states is a Bus of the model (D16): a port whose rows list its two functions. -/

namespace Sys2Proof.Machine

/-! ### The rows that list a read function and a write function -/

/-- Every word of a width. -/
def allWords (w : Nat) : List (BitVec w) :=
  (List.range (2 ^ w)).map (BitVec.ofNat w)

theorem mem_allWords {w : Nat} (x : BitVec w) : x ∈ allWords w :=
  List.mem_map.mpr ⟨x.toNat, List.mem_range.mpr x.isLt, BitVec.ofNat_toNat w x ▸ BitVec.setWidth_eq x⟩

section
variable (n : Nat) (rd : Nat → Addr → Except MemFaultKind Byte) (wr : Nat → Addr → Byte → Except MemFaultKind Nat)

/-- The row of one answer of a read function. -/
def readRow (m : Nat) (addr : Addr) : ReadRow :=
  { mode := m, base := addr.toNat, size := 1, answer := rd m addr }

/-- The row of one answer of a write function. -/
def writeRow (m : Nat) (addr : Addr) (v : Byte) : WriteRow :=
  { mode := m, base := addr.toNat, size := 1, minValue := v, maxValue := v, answer := wr m addr v }

/-- A read function over the states below `n`, row by row. -/
def readRows : List ReadRow :=
  (List.range n).flatMap fun m => (allWords 16).map fun addr => readRow rd m addr

/-- A write function over the states below `n`, row by row. -/
def writeRows : List WriteRow :=
  (List.range n).flatMap fun m => (allWords 16).flatMap fun addr => (allWords 8).map fun v => writeRow wr m addr v

variable {n rd wr}

theorem mem_readRows {row : ReadRow} : row ∈ readRows n rd ↔ ∃ m < n, ∃ addr, row = readRow rd m addr := by
  simp [readRows, mem_allWords, eq_comm]

theorem mem_writeRows {row : WriteRow} : row ∈ writeRows n wr ↔ ∃ m < n, ∃ addr v, row = writeRow wr m addr v := by
  simp [writeRows, mem_allWords, eq_comm]

theorem inRange_one_iff (a addr : Addr) : inRange a.toNat 1 addr = true ↔ a = addr := by
  simp only [inRange, Bool.and_eq_true, decide_eq_true_eq, ← BitVec.toNat_inj]
  omega

theorem readRow_fits_iff (m mode : Nat) (a addr : Addr) :
    ((readRow rd m a).mode == mode && inRange (readRow rd m a).base (readRow rd m a).size addr) = true ↔
      m = mode ∧ a = addr := by
  simp [readRow, inRange_one_iff]

theorem writeRow_fits_iff (m mode : Nat) (a addr : Addr) (u v : Byte) :
    ((writeRow wr m a u).mode == mode && inRange (writeRow wr m a u).base (writeRow wr m a u).size addr &&
      decide ((writeRow wr m a u).minValue ≤ v) && decide (v ≤ (writeRow wr m a u).maxValue)) = true ↔
      m = mode ∧ a = addr ∧ u = v := by
  have hvalue : u ≤ v ∧ v ≤ u ↔ u = v := antisymm_iff
  simp only [Bool.and_eq_true, beq_iff_eq, decide_eq_true_eq, and_assoc]
  simp only [writeRow, inRange_one_iff, hvalue]

theorem Port.readAnswer_of_rows {p : Port} (hreads : p.reads = readRows n rd) (hmode : p.mode < n) (addr : Addr) :
    p.readAnswer addr = rd p.mode addr := by
  unfold Port.readAnswer
  split
  · rename_i row hrow
    obtain ⟨m, -, a, rfl⟩ := mem_readRows.mp (hreads ▸ List.mem_of_find?_eq_some hrow)
    have hfits := List.find?_some hrow
    obtain ⟨rfl, rfl⟩ := (readRow_fits_iff m p.mode a addr).mp hfits
    rfl
  · rename_i hnone
    have hmem : readRow rd p.mode addr ∈ p.reads := hreads ▸ mem_readRows.mpr ⟨p.mode, hmode, addr, rfl⟩
    exact absurd ((readRow_fits_iff p.mode p.mode addr addr).mpr ⟨rfl, rfl⟩) (List.find?_eq_none.mp hnone _ hmem)

theorem Port.writeAnswer_of_rows {p : Port} (hwrites : p.writes = writeRows n wr) (hmode : p.mode < n) (addr : Addr)
    (v : Byte) : p.writeAnswer addr v = wr p.mode addr v := by
  unfold Port.writeAnswer
  split
  · rename_i row hrow
    obtain ⟨m, -, a, u, rfl⟩ := mem_writeRows.mp (hwrites ▸ List.mem_of_find?_eq_some hrow)
    have hfits := List.find?_some hrow
    obtain ⟨rfl, rfl, rfl⟩ := (writeRow_fits_iff m p.mode a addr u v).mp hfits
    rfl
  · rename_i hnone
    have hmem : writeRow wr p.mode addr v ∈ p.writes := hwrites ▸ mem_writeRows.mpr ⟨p.mode, hmode, addr, v, rfl⟩
    exact absurd ((writeRow_fits_iff p.mode p.mode addr addr v v).mpr ⟨rfl, rfl, rfl⟩)
      (List.find?_eq_none.mp hnone _ hmem)

end

/-! ### A Bus that a port answers everywhere -/

section
variable {bus : Bus} {addr : Addr} {v : Byte} {kind : MemFaultKind}

theorem Bus.read_port (hacc : bus.accessAt addr = some .port) : bus.read addr = bus.port.read addr := by
  simp only [Bus.read, hacc]

theorem Bus.write_port_of_ok {mode : Nat} (hacc : bus.accessAt addr = some .port)
    (hw : bus.port.writeAnswer addr v = .ok mode) :
    bus.write addr v = .ok { bus with port := { bus.port with
      mode := mode, held := hold bus.port.held addr.toNat v, history := (addr, v) :: bus.port.history } } := by
  simp only [Bus.write, hacc, Port.write, hw]

theorem Bus.write_port_of_error (hacc : bus.accessAt addr = some .port) (hw : bus.port.writeAnswer addr v = .error kind) :
    bus.write addr v = .error { kind := kind, addr := addr } := by
  simp only [Bus.write, hacc, Port.write, hw]

theorem Port.read_of_ok {p : Port} (hheld : ∀ u, heldAt p.held addr.toNat = some u → u = v)
    (hr : p.readAnswer addr = .ok v) : p.read addr = .ok v := by
  cases h : heldAt p.held addr.toNat with
  | none => simp only [Port.read, h, hr]
  | some u => rw [Port.read_held h, hheld u h]

theorem Port.read_of_error {p : Port} (hheld : heldAt p.held addr.toNat = none) (hr : p.readAnswer addr = .error kind) :
    p.read addr = .error { kind := kind, addr := addr } := by
  simp only [Port.read, hheld, hr]

theorem Bus.ofPort_accessAt (p : Port) (addr : Addr) : (Bus.ofPort p).accessAt addr = some .port := by
  have hcovers : ({ base := 0, size := Config.addressSpaceSize, access := .port } : Region).covers addr = true := by
    simp only [Region.covers, inRange, addressSpaceSize_eq, Bool.and_eq_true, decide_eq_true_eq]
    exact ⟨Nat.zero_le _, by simpa using addr.isLt⟩
  simp only [Bus.accessAt, Bus.ofPort, List.find?_cons, hcovers, Option.map_some]

theorem Memory.wf_nil (bound : Nat) : Memory.wf bound [] :=
  ⟨List.Pairwise.nil, by simp⟩

theorem Bus.ofPort_wf {p : Port} (hp : p.wf) : (Bus.ofPort p).wf :=
  ⟨⟨Nat.zero_le _, Memory.wf_nil 0⟩, by simp [Bus.ofPort], Memory.wf_nil _, hp⟩

end

/-! ### The simulation -/

section
variable {n start : Nat} {rd : Nat → Addr → Except MemFaultKind Byte} {wr : Nat → Addr → Byte → Except MemFaultKind Nat}

/-- The Bus whose port lists `rd` and `wr`, in the state `start`. -/
def finiteBus (n start : Nat) (rd : Nat → Addr → Except MemFaultKind Byte)
    (wr : Nat → Addr → Byte → Except MemFaultKind Nat) : Bus :=
  Bus.ofPort { Port.ofId 0 with mode := start, reads := readRows n rd, writes := writeRows n wr }

/-- `bus` is where `finiteBus` stands when the given Bus is in the state `m`, after the writes `ws`. -/
structure Simulates (n : Nat) (rd : Nat → Addr → Except MemFaultKind Byte)
    (wr : Nat → Addr → Byte → Except MemFaultKind Nat) (ws : List (Addr × Byte)) (m : Nat) (bus : Bus) : Prop where
  access : ∀ addr, bus.accessAt addr = some .port
  lt : m < n
  mode : bus.port.mode = m
  reads : bus.port.reads = readRows n rd
  writes : bus.port.writes = writeRows n wr
  held : ∀ addr : Addr, heldAt bus.port.held addr.toNat = lastWritten ws addr

theorem Simulates.readAnswer {ws : List (Addr × Byte)} {m : Nat} {bus : Bus} (h : Simulates n rd wr ws m bus) (addr : Addr) :
    bus.port.readAnswer addr = rd m addr := by
  rw [Port.readAnswer_of_rows h.reads (h.mode ▸ h.lt), h.mode]

theorem Simulates.writeAnswer {ws : List (Addr × Byte)} {m : Nat} {bus : Bus} (h : Simulates n rd wr ws m bus) (addr : Addr)
    (v : Byte) : bus.port.writeAnswer addr v = wr m addr v := by
  rw [Port.writeAnswer_of_rows h.writes (h.mode ▸ h.lt), h.mode]

theorem simulates_start (hstart : start < n) : Simulates n rd wr [] start (finiteBus n start rd wr) :=
  ⟨Bus.ofPort_accessAt _, hstart, rfl, rfl, rfl, fun _ => rfl⟩

theorem Simulates.write {ws : List (Addr × Byte)} {m m' : Nat} {bus : Bus} {w : Addr × Byte}
    (h : Simulates n rd wr ws m bus) (hlt : m' < n) (hw : wr m w.1 w.2 = .ok m') :
    ∃ bus', bus.write w.1 w.2 = .ok bus' ∧ Simulates n rd wr (ws ++ [w]) m' bus' := by
  have hwrite := Bus.write_port_of_ok (h.access w.1) ((h.writeAnswer w.1 w.2).trans hw)
  refine ⟨_, hwrite, fun addr => (Bus.accessAt_write hwrite addr).trans (h.access addr), hlt, rfl, h.reads, h.writes,
    fun addr => ?_⟩
  rw [heldAt_hold, lastWritten_append, h.held]
  by_cases haddr : w.1 = addr
  · simp [haddr]
  · have hnat : addr.toNat ≠ w.1.toNat := fun h' => haddr (BitVec.eq_of_toNat_eq h').symm
    simp [haddr, hnat]

/-- The commuting square, by induction on the writes: each accepted write is accepted, and goes to the state it goes to. -/
theorem simulates_writes (hfin : IsFiniteBus n start rd wr) (ws : List (Addr × Byte)) {m : Nat}
    (h : stateAfter wr start ws = .ok m) :
    ∃ bus', (finiteBus n start rd wr).writes ws = .ok bus' ∧ Simulates n rd wr ws m bus' := by
  obtain ⟨hstart, hclosed, -⟩ := hfin
  induction ws using List.reverseRecOn generalizing m with
  | nil =>
    cases h
    exact ⟨_, rfl, simulates_start hstart⟩
  | append_singleton ws w ih =>
    rw [stateAfter_append] at h
    split at h
    · rename_i m₀ hm₀
      obtain ⟨bus₀, hwrites, hsim⟩ := ih hm₀
      obtain ⟨bus', hwrite, hsim'⟩ := hsim.write (hclosed _ _ _ _ hsim.lt h) h
      refine ⟨bus', ?_, hsim'⟩
      rw [Bus.writes_append, hwrites]
      exact hwrite
    · cases h

/-- Settles O52: the Bus that lists the two functions answers as they do in every state the writes lead to; a byte that its port
holds is the one the read function answers, by R53. -/
theorem everyFiniteBusIsABusOfTheModel : Obligations.EveryFiniteBusIsABusOfTheModel := by
  intro n start rd wr hfin
  refine ⟨finiteBus n start rd wr, Bus.ofPort_wf ⟨List.Pairwise.nil, by simp [Port.ofId]⟩, fun ws m hm => ?_⟩
  obtain ⟨bus', hwrites, hsim⟩ := simulates_writes hfin ws hm
  obtain ⟨-, -, hlast⟩ := hfin
  have hheld : ∀ addr : Addr, ∀ u, heldAt bus'.port.held addr.toNat = some u → rd m addr = .ok u :=
    fun addr u hu => hlast ws m hm addr u ((hsim.held addr).symm.trans hu)
  refine ⟨bus', hwrites, fun addr b hb => ?_, fun addr kind he => ?_, fun addr v kind he => ?_⟩
  · rw [Bus.read_port (hsim.access addr)]
    refine Port.read_of_ok (fun u hu => ?_) ((hsim.readAnswer addr).trans hb)
    cases hb.symm.trans (hheld addr u hu)
    rfl
  · rw [Bus.read_port (hsim.access addr)]
    refine Port.read_of_error (Option.eq_none_iff_forall_ne_some.mpr fun u hu => ?_) ((hsim.readAnswer addr).trans he)
    cases he.symm.trans (hheld addr u hu)
  · exact Bus.write_port_of_error (hsim.access addr) ((hsim.writeAnswer addr v).trans he)

end

end Sys2Proof.Machine
